-- ==== Sys2Proof/Word.lean ====
section
/-! DEFINITION. The machine word of the LS-8-style CORE: one unsigned byte (spec/00_scope.md R7, R8). -/

namespace Sys2Proof

/-- A byte: a register, a memory cell, an opcode, an operand (00_scope.md R8: unsigned, 0..255). -/
abbrev Byte := BitVec 8

end Sys2Proof
end

