-- ==== Sys2Proof/Config.lean ====
section
/-! DEFINITION. The implementation parameters of spec/00_scope.md R7. Nothing here is a free value: the spec
fixes every parameter ("No other parameter exists: there are no optional features"). -/

namespace Sys2Proof.Config

/-- `NREG`: the register file has 8 registers, indices 0..7. -/
abbrev numRegs : Nat := 8

/-- `SP_INDEX`: the stack pointer is register 7 (10_state.md R22). -/
abbrev spIndex : Byte := 7

/-- `SP_RESET`: 244 = 0xF4 (10_state.md R34). -/
abbrev spReset : Byte := 244

/-- `MEMSIZE`: 256 cells, addresses 0..255 (20_memory.md R50). -/
abbrev memSize : Nat := 256

/-- `LOAD_BASE`: a program image is written from address 0 (20_memory.md R65). -/
abbrev loadBase : Nat := 0

/-- `PC_RESET`: 0 (10_state.md R35). -/
abbrev pcReset : Nat := 0

/-- The longest instruction has an opcode byte and two operand bytes (30_encoding.md R70). -/
abbrev maxLength : Nat := 3

end Sys2Proof.Config
end

