-- ==== Sys2Proof/Syntax.lean ====
section
/-! DEFINITION. The 18 instructions of spec/opcode_table.json (00_scope.md R2), one constructor a row, with the
operand bytes exactly as they stand in memory (30_encoding.md R76). -/

namespace Sys2Proof

/-- An instruction. `ra` and `rb` are raw operand bytes used as register indices: an index above 7 is still an
instruction, which raises InvalidRegister when it executes (10_state.md R24). `imm` is an immediate byte. -/
inductive Instr where
  | hlt
  | ldi (ra imm : Byte)
  | prn (ra : Byte)
  | push (ra : Byte)
  | pop (ra : Byte)
  | jmp (ra : Byte)
  | inc (ra rb : Byte)
  | dec (ra rb : Byte)
  | add (ra rb : Byte)
  | sub (ra rb : Byte)
  | mul (ra rb : Byte)
  | div (ra rb : Byte)
  | mod (ra rb : Byte)
  | and (ra rb : Byte)
  | or (ra rb : Byte)
  | xor (ra rb : Byte)
  | shl (ra rb : Byte)
  | shr (ra rb : Byte)
  deriving DecidableEq, Repr

end Sys2Proof
end

