-- ==== Sys2Proof/WellFormed.lean ====
section
/-! DEFINITION. When an instruction is well formed: every operand byte it uses as a register index names a
register 0..7 (30_encoding.md R76, R77; 70_reset_and_hazards.md R197 asks this of programs). An ill-formed
instruction still encodes, decodes and executes: it raises InvalidRegister (log entry 20). -/

namespace Sys2Proof

/-- The byte names a register: 0 ≤ index < 8 (10_state.md R24). -/
def validReg (i : Byte) : Bool := decide (i.toNat < Config.numRegs)

/-- One check per operand that 30_encoding.md R77 lists as a register index; `imm` has none. -/
def Instr.wellFormed : Instr → Bool
  | .hlt => true
  | .ldi ra _ => validReg ra
  | .prn ra => validReg ra
  | .push ra => validReg ra
  | .pop ra => validReg ra
  | .jmp ra => validReg ra
  | .inc ra rb => validReg ra && validReg rb
  | .dec ra rb => validReg ra && validReg rb
  | .add ra rb => validReg ra && validReg rb
  | .sub ra rb => validReg ra && validReg rb
  | .mul ra rb => validReg ra && validReg rb
  | .div ra rb => validReg ra && validReg rb
  | .mod ra rb => validReg ra && validReg rb
  | .and ra rb => validReg ra && validReg rb
  | .or ra rb => validReg ra && validReg rb
  | .xor ra rb => validReg ra && validReg rb
  | .shl ra rb => validReg ra && validReg rb
  | .shr ra rb => validReg ra && validReg rb

end Sys2Proof
end

