-- ==== Sys2Proof/Decode.lean ====
section
/-! DEFINITION. The opcode byte's fields, the opcode map, the decoder and the encoder (spec/30_encoding.md). -/

namespace Sys2Proof

/-- N = `op[7:6]` = `op >> 6`, the number of operand bytes, 0..3 (30_encoding.md R72; 90_conflicts.md C1). -/
def operandCount (op : Byte) : Nat := (op >>> 6).toNat

/-- P = `op[4]`: the instruction sets pc itself (30_encoding.md R73). -/
def pcSetBit (op : Byte) : Bool := op.getLsbD 4

/-! The opcode bytes of 30_encoding.md R78. HLT, LDI, PRN and ADD are the source's own; the other fourteen are
the spec's decision D3 (log entry 4). -/

def Opcode.hlt : Byte := 0x01
def Opcode.ldi : Byte := 0x82
def Opcode.prn : Byte := 0x47
def Opcode.push : Byte := 0x45
def Opcode.pop : Byte := 0x46
def Opcode.jmp : Byte := 0x54
def Opcode.inc : Byte := 0xA5
def Opcode.dec : Byte := 0xA6
def Opcode.add : Byte := 0xA0
def Opcode.sub : Byte := 0xA1
def Opcode.mul : Byte := 0xA2
def Opcode.div : Byte := 0xA3
def Opcode.mod : Byte := 0xA4
def Opcode.and : Byte := 0xA8
def Opcode.or : Byte := 0xAA
def Opcode.xor : Byte := 0xAB
def Opcode.shl : Byte := 0xAC
def Opcode.shr : Byte := 0xAD

/-- The opcode byte of an instruction (30_encoding.md R78). -/
def opcodeOf : Instr → Byte
  | .hlt => Opcode.hlt
  | .ldi _ _ => Opcode.ldi
  | .prn _ => Opcode.prn
  | .push _ => Opcode.push
  | .pop _ => Opcode.pop
  | .jmp _ => Opcode.jmp
  | .inc _ _ => Opcode.inc
  | .dec _ _ => Opcode.dec
  | .add _ _ => Opcode.add
  | .sub _ _ => Opcode.sub
  | .mul _ _ => Opcode.mul
  | .div _ _ => Opcode.div
  | .mod _ _ => Opcode.mod
  | .and _ _ => Opcode.and
  | .or _ _ => Opcode.or
  | .xor _ _ => Opcode.xor
  | .shl _ _ => Opcode.shl
  | .shr _ _ => Opcode.shr

/-- The registered handlers: the opcode byte, and the instruction it stands for, given the operand latch
`(a, b)` (30_encoding.md R74, R77, R78). -/
def handlers : List (Byte × (Byte → Byte → Instr)) :=
  [(Opcode.hlt, fun _ _ => .hlt),
   (Opcode.ldi, fun a b => .ldi a b),
   (Opcode.prn, fun a _ => .prn a)] ++
  [(Opcode.push, fun a _ => .push a),
   (Opcode.pop, fun a _ => .pop a),
   (Opcode.jmp, fun a _ => .jmp a)] ++
  [(Opcode.inc, fun a b => .inc a b),
   (Opcode.dec, fun a b => .dec a b),
   (Opcode.add, fun a b => .add a b),
   (Opcode.sub, fun a b => .sub a b),
   (Opcode.mul, fun a b => .mul a b),
   (Opcode.div, fun a b => .div a b),
   (Opcode.mod, fun a b => .mod a b)] ++
  [(Opcode.and, fun a b => .and a b),
   (Opcode.or, fun a b => .or a b),
   (Opcode.xor, fun a b => .xor a b),
   (Opcode.shl, fun a b => .shl a b),
   (Opcode.shr, fun a b => .shr a b)]

/-- The dispatcher's lookup: "lookup is exact-match on the opcode byte" (30_encoding.md R74; 40_cycle.md R94).
`none` is an opcode with no registered handler (R79). -/
def lookup (op a b : Byte) : Option Instr :=
  (handlers.find? (fun h => h.1 == op)).map (fun h => h.2 a b)

/-- Why a list of bytes is no instruction. -/
inductive DecodeReject where
  /-- There is no opcode byte. -/
  | noOpcode
  /-- Fewer operand bytes follow the opcode than its bits 7:6 ask for (30_encoding.md R70). -/
  | missingOperands (op : Byte)
  /-- No handler is registered for the opcode (30_encoding.md R79). -/
  | unsupportedOpcode (op : Byte)
  deriving DecidableEq, Repr

/-- Read one instruction from the front of a list of bytes, and give the bytes after it. The operand bytes are
taken before the handler is looked up (40_cycle.md R93, R98); an absent operand is 0 (30_encoding.md R76). -/
def decode : List Byte → Except DecodeReject (Instr × List Byte)
  | [] => .error .noOpcode
  | op :: rest =>
    let n := operandCount op
    if rest.length < n then .error (.missingOperands op)
    else
      let a := if 1 ≤ n then rest.getD 0 0 else 0
      let b := if 2 ≤ n then rest.getD 1 0 else 0
      match lookup op a b with
      | none => .error (.unsupportedOpcode op)
      | some i => .ok (i, rest.drop n)

/-- Read instructions one after another, at most `fuel` of them, until no byte is left. -/
def decodeAll : Nat → List Byte → Except DecodeReject (List Instr)
  | _, [] => .ok []
  | 0, _ :: _ => .error .noOpcode
  | fuel + 1, bytes =>
    match decode bytes with
    | .error e => .error e
    | .ok (i, rest) =>
      match decodeAll fuel rest with
      | .error e => .error e
      | .ok is => .ok (i :: is)

/-- The bytes of an instruction: the opcode, then operand_a and operand_b where the format has them
(30_encoding.md R70, R77, R78). -/
def encode : Instr → List Byte
  | .hlt => [Opcode.hlt]
  | .ldi ra imm => [Opcode.ldi, ra, imm]
  | .prn ra => [Opcode.prn, ra]
  | .push ra => [Opcode.push, ra]
  | .pop ra => [Opcode.pop, ra]
  | .jmp ra => [Opcode.jmp, ra]
  | .inc ra rb => [Opcode.inc, ra, rb]
  | .dec ra rb => [Opcode.dec, ra, rb]
  | .add ra rb => [Opcode.add, ra, rb]
  | .sub ra rb => [Opcode.sub, ra, rb]
  | .mul ra rb => [Opcode.mul, ra, rb]
  | .div ra rb => [Opcode.div, ra, rb]
  | .mod ra rb => [Opcode.mod, ra, rb]
  | .and ra rb => [Opcode.and, ra, rb]
  | .or ra rb => [Opcode.or, ra, rb]
  | .xor ra rb => [Opcode.xor, ra, rb]
  | .shl ra rb => [Opcode.shl, ra, rb]
  | .shr ra rb => [Opcode.shr, ra, rb]

/-- A program's image: its instructions' bytes "in order, with no gaps" (20_memory.md R65). -/
def encodeAll (is : List Instr) : List Byte := is.flatMap encode

/-- Byte `k` of an instruction whose bits are `w`, bit 0 the least significant bit of the first byte; every bit
above `nbits` is 0. -/
def tableByte (nbits w k : Nat) : Byte := BitVec.ofNat 8 ((w % 2 ^ nbits) >>> (8 * k))

/-- The longest instruction's bytes of such a word, first byte first. -/
def tableBytes (nbits w : Nat) : List Byte :=
  (List.range Config.maxLength).map (tableByte nbits w)

/-- The instruction the decoder reads from a word numbered as spec/opcode_table.json numbers it. -/
def decodeTableWord (nbits w : Nat) : Option Instr :=
  match decode (tableBytes nbits w) with
  | .ok (i, _) => some i
  | .error _ => none

end Sys2Proof
end

