-- ==== Sys2Proof/Machine/State.lean ====
section
/-! DEFINITION. The state of the block, exactly the tuple `(x[0..7], pc, M[0..255], run, out)` of
spec/10_state.md R20, its reset values (R38), and the reasons for which the model itself stops. -/

namespace Sys2Proof.Machine

/-- The five fatal errors and the information each records (60_exceptions.md R170; log entry 18). -/
inductive FatalError where
  /-- A memory access outside 0..255: opcode fetch, operand fetch, Load (R171). -/
  | invalidAddress (address : Nat)
  /-- An operand byte above 7 used as a register index (R172). -/
  | invalidRegister (index : Byte)
  /-- DIV or MOD with divisor 0 (R173). -/
  | divisionByZero
  /-- The ALU was given an operation name outside its set; no program reaches it (R174, log entry 13). -/
  | unsupportedOperation (operation : String)
  /-- An opcode byte with no registered handler (R175). -/
  | unsupportedOpcode (op : Byte)
  deriving DecidableEq, Repr

/-- The run state (10_state.md R27). HALTED and FAULTED are terminal. -/
inductive RunState where
  | running
  | halted
  | faulted (e : FatalError)
  deriving DecidableEq, Repr

/-- Memory as (address, byte) cells in one canonical form (`Memory.wf` in Machine/Ops.lean): addresses strictly
rising, all below 256, and no cell equal to what an unlisted address reads as. -/
abbrev Memory := List Host.Cell

/-- The architectural state (10_state.md R20). -/
structure State where
  /-- x[0..7]; register 7 is the stack pointer (R21, R22). -/
  regs : Vector Byte 8
  /-- The program counter, an unbounded natural that is never wrapped (R26; log entry 2). -/
  pc : Nat
  /-- M[0..255] (20_memory.md R50). -/
  mem : Memory
  /-- The run state (R27). -/
  run : RunState
  /-- The bytes emitted by PRN so far, in emission order (R28). -/
  out : List Byte
  deriving DecidableEq, Repr

/-- What stops the model with a fault: nothing. Every error the spec names has an entry the spec describes
(60_exceptions.md R177), so it is a next state whose `run` is FAULTED, and Step in a terminal state has no effect
(10_state.md R43). The type has no constructor: no step, meaning or port can raise one (safe; log entry 14). -/
inductive Fault where
  deriving DecidableEq, Repr

/-- What the model refuses, by name. -/
inductive Refusal where
  /-- Raised by exec's arm of an instruction that has no meaning yet; no arm does (safe). -/
  | notModelled (mnemonic : String)
  /-- Raised by the Load port (Machine/Ports.lean) in a state other than the one Reset leaves: "the block defines
  no effect for it then" (20_memory.md R67; 93_implementation_defined.md I12: refuse). No step raises it (safe;
  log entry 10). -/
  | loadNotAvailable
  deriving DecidableEq, Repr

/-- The machine right after reset (10_state.md R38): R0..R6 are 0 and SP is 244 (R34), pc is 0 (R35), no memory
cell is listed, so that every cell reads 0x00 (R36), RUNNING, nothing emitted (R37). -/
def State.reset : State where
  regs := #v[0, 0, 0, 0, 0, 0, 0, Config.spReset]
  pc := Config.pcReset
  mem := []
  run := .running
  out := []

end Sys2Proof.Machine
end

