-- ==== Sys2Proof/Machine/Flags.lean ====
section
/-! DEFINITION. The block has no flags, condition codes or predicates (spec/10_state.md R29), and the ALU reports
no carry, overflow, sign or zero (44_alu.md R136). What stands where a flag computation would is the masking of an
exact result to 8 bits, "the system's only arithmetic normalization step" (00_scope.md R10), by which a carry or a
borrow is lost with no indication. -/

namespace Sys2Proof.Machine

/-- `mask8(v)` = `v mod 256`, the non-negative residue also for a negative `v` (00_scope.md R10; the negative case
is the spec's derivation, log entry 15). -/
def mask8 (v : Int) : Byte := BitVec.ofNat 8 (v % 256).toNat

end Sys2Proof.Machine
end

