-- ==== Sys2Proof/Machine/Ops.lean ====
section
/-! DEFINITION. The named operations every meaning is written from: memory cells, the register and memory access
primitives (spec/00_scope.md R11, R12), Emit and halt (R13), fault entry (60_exceptions.md R177), the pc update
(40_cycle.md R96) and the commit of a cycle (R99). -/

namespace Sys2Proof.Machine

/-! ### Memory cells -/

/-- What an unlisted address reads as: 0x00, the value of every cell at reset (10_state.md R36, the spec's decision
D5; log entry 1). -/
def Memory.unlisted : Byte := 0x00

/-- The canonical form: addresses strictly rising and inside the address space, no cell equal to `unlisted`. -/
abbrev Memory.wf (m : Memory) : Prop :=
  m.Pairwise (fun c d => c.1 < d.1) ∧ ∀ c ∈ m, c.1 < Config.memSize ∧ c.2 ≠ Memory.unlisted

/-- The byte at an address. -/
def Memory.read (m : Memory) (a : Nat) : Byte := (m.lookup a).getD Memory.unlisted

/-- Put a cell in front of the first cell whose address is not lower. -/
def Memory.insertCell (c : Host.Cell) : Memory → Memory
  | [] => [c]
  | d :: m => if d.1 < c.1 then d :: Memory.insertCell c m else c :: d :: m

/-- Store a byte at an address: the old cell goes, and a new one is listed unless it reads as an unlisted one. -/
def Memory.write (m : Memory) (a : Nat) (v : Byte) : Memory :=
  let rest := m.filter (fun c => c.1 != a)
  if v = Memory.unlisted then rest else Memory.insertCell (a, v) rest

/-! ### Access primitives -/

/-- `MemRead(a, 1)` (00_scope.md R12; 20_memory.md R52). -/
def memRead (s : State) (a : Nat) : Except FatalError Byte :=
  if a < Config.memSize then .ok (s.mem.read a) else .error (.invalidAddress a)

/-- `MemWrite(a, 1, v)` (00_scope.md R12; 20_memory.md R52). -/
def memWrite (s : State) (a : Nat) (v : Byte) : Except FatalError State :=
  if a < Config.memSize then .ok { s with mem := s.mem.write a v } else .error (.invalidAddress a)

/-- Read `x[i]`; an index above 7 raises InvalidRegister(i) (00_scope.md R11; 10_state.md R24). -/
def readReg (s : State) (i : Byte) : Except FatalError Byte :=
  if h : i.toNat < Config.numRegs then .ok s.regs[i.toNat] else .error (.invalidRegister i)

/-- `x[i] <- v`; an index above 7 raises InvalidRegister(i) (00_scope.md R11; 10_state.md R24). -/
def writeReg (s : State) (i v : Byte) : Except FatalError State :=
  if h : i.toNat < Config.numRegs then .ok { s with regs := s.regs.set i.toNat v }
  else .error (.invalidRegister i)

/-- `SP`, an alias of `x[7]` (00_scope.md R11). -/
def State.sp (s : State) : Byte := s.regs[7]

/-- `Emit(v)`: append a byte to the output stream (00_scope.md R13; 10_state.md R28). -/
def emit (s : State) (v : Byte) : State := { s with out := s.out ++ [v] }

/-- `halt`: the run state becomes HALTED (00_scope.md R13; 10_state.md R27). -/
def halt (s : State) : State := { s with run := .halted }

/-- `pc <- t` (00_scope.md R13), written by JMP alone. -/
def setPc (s : State) (t : Byte) : State := { s with pc := t.toNat }

/-! ### Faults and the end of a cycle -/

/-- Fault entry: `run <- FAULTED(kind, info)` on the state BEFORE the cycle; nothing else is saved or changed, no
vector is taken, pc still holds the faulting instruction's address (60_exceptions.md R176, R177; log entry 3). There
is no return from it (R179): no operation of the block leaves FAULTED. -/
def raise (e : FatalError) (s : State) : State := { s with run := .faulted e }

/-- The pc update after the handler, decided by bit 4 of the fetched opcode byte: P = 0 advances by N + 1, P = 1
keeps the pc the handler set (40_cycle.md R96; 30_encoding.md R83). It never wraps (40_cycle.md R100). -/
def updatePc (op : Byte) (s : State) : State :=
  if pcSetBit op then s else { s with pc := s.pc + operandCount op + 1 }

/-- The end of a cycle: the handler ran on a copy of the state; if it raised, none of its writes takes effect and
the fault is entered, else all take effect together with the pc update (40_cycle.md R99, R103). -/
def finishCycle (op : Byte) (s : State) (staged : Except FatalError State) :
    Host.Outcome State Fault Refusal :=
  match staged with
  | .error e => .next (raise e s)
  | .ok s' => .next (updatePc op s')

end Sys2Proof.Machine
end

