-- ==== Sys2Proof/Machine/Operands.lean ====
section
/-! DEFINITION. Fetching an instruction and its operands (spec/40_cycle.md R92, R93), and the operand forms of
spec/30_encoding.md R76: a register index read or written through `x[i]`, an immediate byte, an absent operand. -/

namespace Sys2Proof.Machine

/-- The opcode byte and the operand latch `(a, b)`, which exist only within a cycle (10_state.md R31). -/
structure Fetched where
  op : Byte
  a : Byte
  b : Byte
  deriving DecidableEq, Repr

/-- The operand byte `k` bytes after the opcode, or 0, the value of an absent operand, where the opcode's count is
below `k` (40_cycle.md R93; log entry 5). -/
def fetchOperand (s : State) (n k : Nat) : Except FatalError Byte :=
  if k ≤ n then memRead s (s.pc + k) else .ok 0

/-- The fetch of one cycle: the opcode at pc, then the N operand bytes at rising addresses, before any handler is
looked up. With N = 3 the byte at pc + 3 is read too and its value dropped (40_cycle.md R92, R93, R98). -/
def fetch (s : State) : Except FatalError Fetched := do
  let op ← memRead s s.pc
  let a ← fetchOperand s (operandCount op) 1
  let b ← fetchOperand s (operandCount op) 2
  let _ ← fetchOperand s (operandCount op) 3
  return { op := op, a := a, b := b }

/-- Check that an operand byte names a register, reading nothing: the first line of PUSH's and POP's rules
(42_stack.md R121, R122). -/
def checkReg (s : State) (i : Byte) : Except FatalError Unit := do
  let _ ← readReg s i
  return ()

end Sys2Proof.Machine
end

