-- ==== Sys2Proof/Machine/Alu.lean ====
section
/-! DEFINITION. The ALU (spec/44_alu.md §1): twelve operations on two byte values, stateless, every result masked to
8 bits; and the common form of the instructions that wrap it (R140). -/

namespace Sys2Proof.Machine

/-- The closed set of operations (44_alu.md R135). -/
inductive AluOp where
  | add | sub | mul | div | mod | inc | dec | and | or | xor | shl | shr
  deriving DecidableEq, Repr

/-- The operation divides, and so needs a divisor that is not 0 (44_alu.md R137). -/
def divides : AluOp → Bool
  | .div => true
  | .mod => true
  | _ => false

/-- The mathematical result on unbounded integers, before masking (44_alu.md R136, R141 to R152). The values are
unsigned; a shift uses the whole value of `B` (R151, R152; log entry 16); INC and DEC ignore `B` (R146, R147). -/
def exactResult (op : AluOp) (A B : Nat) : Int :=
  match op with
  | .add => A + B
  | .sub => (A : Int) - B
  | .mul => A * B
  | .div => (A / B : Nat)
  | .mod => (A % B : Nat)
  | .inc => A + 1
  | .dec => (A : Int) - 1
  | .and => (A &&& B : Nat)
  | .or => (A ||| B : Nat)
  | .xor => (A ^^^ B : Nat)
  | .shl => (A <<< B : Nat)
  | .shr => (A >>> B : Nat)

/-- `ALU(OP, A, B)`: DivisionByZero for DIV and MOD with `B = 0` whatever `A` is (44_alu.md R137), else the masked
exact result (R136). It does not know its caller (R139). -/
def alu (op : AluOp) (A B : Byte) : Except FatalError Byte :=
  if divides op && B == 0 then .error .divisionByZero
  else .ok (mask8 (exactResult op A.toNat B.toNat))

/-- The operation a name stands for (44_alu.md R135). -/
def aluOpOfName (name : String) : Option AluOp :=
  match name with
  | "ADD" => some .add
  | "SUB" => some .sub
  | "MUL" => some .mul
  | "DIV" => some .div
  | "MOD" => some .mod
  | "INC" => some .inc
  | "DEC" => some .dec
  | "AND" => some .and
  | "OR" => some .or
  | "XOR" => some .xor
  | "SHL" => some .shl
  | "SHR" => some .shr
  | _ => none

/-- The ALU asked by name: a name outside the set raises UnsupportedOperation (44_alu.md R138). Every caller in the
block has its operation fixed at registration and calls `alu`, so no program reaches that error (log entry 13). -/
def aluByName (name : String) (A B : Byte) : Except FatalError Byte :=
  match aluOpOfName name with
  | none => .error (.unsupportedOperation name)
  | some op => alu op A B

/-- The common form of the twelve ALU instructions: read `x[a]`, read `x[b]`, compute, write `x[a]` (44_alu.md
R140). INC and DEC read and validate `x[b]` too (R146, R147; log entry 6). -/
def aluHandler (op : AluOp) (ra rb : Byte) (s : State) : Except FatalError State := do
  let A ← readReg s ra
  let B ← readReg s rb
  let r ← alu op A B
  writeReg s ra r

end Sys2Proof.Machine
end

