-- ==== Sys2Proof/Machine/Arith.lean ====
section
/-! DEFINITION. The twelve ALU instructions (spec/44_alu.md §2), each the common form of R140 with its own operation
and opcode byte. -/

namespace Sys2Proof.Machine

/-- INC (R146): `x[a] <- mask8(x[a] + 1)`; `x[b]` is read and validated, its value unused. -/
def execInc (ra rb : Byte) (s : State) : Host.Outcome State Fault Refusal :=
  finishCycle Opcode.inc s (aluHandler .inc ra rb s)

/-- DEC (R147): `x[a] <- mask8(x[a] - 1)`; `x[b]` is read and validated, its value unused. -/
def execDec (ra rb : Byte) (s : State) : Host.Outcome State Fault Refusal :=
  finishCycle Opcode.dec s (aluHandler .dec ra rb s)

/-- ADD (R141): `x[a] <- mask8(x[a] + x[b])`. -/
def execAdd (ra rb : Byte) (s : State) : Host.Outcome State Fault Refusal :=
  finishCycle Opcode.add s (aluHandler .add ra rb s)

/-- SUB (R142): `x[a] <- mask8(x[a] - x[b])`. -/
def execSub (ra rb : Byte) (s : State) : Host.Outcome State Fault Refusal :=
  finishCycle Opcode.sub s (aluHandler .sub ra rb s)

/-- MUL (R143): the low 8 bits of the product. -/
def execMul (ra rb : Byte) (s : State) : Host.Outcome State Fault Refusal :=
  finishCycle Opcode.mul s (aluHandler .mul ra rb s)

/-- DIV (R144): the unsigned floor quotient; a divisor of 0 raises DivisionByZero. -/
def execDiv (ra rb : Byte) (s : State) : Host.Outcome State Fault Refusal :=
  finishCycle Opcode.div s (aluHandler .div ra rb s)

/-- MOD (R145): the unsigned remainder; a divisor of 0 raises DivisionByZero. -/
def execMod (ra rb : Byte) (s : State) : Host.Outcome State Fault Refusal :=
  finishCycle Opcode.mod s (aluHandler .mod ra rb s)

/-- AND (R148): `x[a] <- x[a] & x[b]`. -/
def execAnd (ra rb : Byte) (s : State) : Host.Outcome State Fault Refusal :=
  finishCycle Opcode.and s (aluHandler .and ra rb s)

/-- OR (R149): `x[a] <- x[a] | x[b]`. -/
def execOr (ra rb : Byte) (s : State) : Host.Outcome State Fault Refusal :=
  finishCycle Opcode.or s (aluHandler .or ra rb s)

/-- XOR (R150): `x[a] <- x[a] ^ x[b]`. -/
def execXor (ra rb : Byte) (s : State) : Host.Outcome State Fault Refusal :=
  finishCycle Opcode.xor s (aluHandler .xor ra rb s)

/-- SHL (R151): left shift by the whole value of `x[b]`, masked. -/
def execShl (ra rb : Byte) (s : State) : Host.Outcome State Fault Refusal :=
  finishCycle Opcode.shl s (aluHandler .shl ra rb s)

/-- SHR (R152): logical right shift by the whole value of `x[b]`. -/
def execShr (ra rb : Byte) (s : State) : Host.Outcome State Fault Refusal :=
  finishCycle Opcode.shr s (aluHandler .shr ra rb s)

end Sys2Proof.Machine
end

