-- ==== Sys2Proof/Machine/HltLdiPrn.lean ====
section
/-! DEFINITION. HLT, LDI and PRN (spec/41_hlt_ldi_prn.md). A handler works on a copy of the state; `finishCycle` commits
it. -/

namespace Sys2Proof.Machine

/-- HLT's handler (R110). -/
def hltHandler (s : State) : Except FatalError State := .ok (halt s)

/-- HLT (R110): HALTED, and pc advances by 1 like any instruction with bit 4 clear (log entry 8). -/
def execHlt (s : State) : Host.Outcome State Fault Refusal :=
  finishCycle Opcode.hlt s (hltHandler s)

/-- LDI's handler (R111): `x[a] <- b`. -/
def ldiHandler (ra imm : Byte) (s : State) : Except FatalError State := writeReg s ra imm

/-- LDI (R111). -/
def execLdi (ra imm : Byte) (s : State) : Host.Outcome State Fault Refusal :=
  finishCycle Opcode.ldi s (ldiHandler ra imm s)

/-- PRN's handler (R112): the byte in `x[a]` goes to the output sink. -/
def prnHandler (ra : Byte) (s : State) : Except FatalError State := do
  let v ← readReg s ra
  return emit s v

/-- PRN (R112). -/
def execPrn (ra : Byte) (s : State) : Host.Outcome State Fault Refusal :=
  finishCycle Opcode.prn s (prnHandler ra s)

end Sys2Proof.Machine
end

