-- ==== Sys2Proof/Machine/Jump.lean ====
section
/-! DEFINITION. JMP (spec/43_jump.md). -/

namespace Sys2Proof.Machine

/-- JMP's handler (R130): `pc <- x[a]`. -/
def jmpHandler (ra : Byte) (s : State) : Except FatalError State := do
  let t ← readReg s ra
  return setPc s t

/-- JMP (R130): its opcode has bit 4 set, so the cycle does not advance pc (40_cycle.md R96). -/
def execJmp (ra : Byte) (s : State) : Host.Outcome State Fault Refusal :=
  finishCycle Opcode.jmp s (jmpHandler ra s)

end Sys2Proof.Machine
end

