-- ==== Sys2Proof/Machine/Stack.lean ====
section
/-! DEFINITION. PUSH and POP (spec/42_stack.md). SP is register 7 and is updated by the ALU's DEC and INC
(R120, R125). -/

namespace Sys2Proof.Machine

/-- PUSH's handler (R121), in the rule's order: the index check, SP decremented, the source read AFTER that (so
`PUSH R7` stores the new SP; log entry 7), the store at the new SP. -/
def pushHandler (ra : Byte) (s : State) : Except FatalError State := do
  checkReg s ra
  let sp ← alu .dec s.sp 0
  let s₁ ← writeReg s Config.spIndex sp
  let v ← readReg s₁ ra
  memWrite s₁ s₁.sp.toNat v

/-- PUSH (R121). -/
def execPush (ra : Byte) (s : State) : Host.Outcome State Fault Refusal :=
  finishCycle Opcode.push s (pushHandler ra s)

/-- POP's handler (R122), in the rule's order: the index check, the load from SP, the destination written, then SP
incremented from its value AFTER that write (so `POP R7` leaves the popped byte plus 1; log entry 7). -/
def popHandler (ra : Byte) (s : State) : Except FatalError State := do
  checkReg s ra
  let v ← memRead s s.sp.toNat
  let s₁ ← writeReg s ra v
  let sp ← alu .inc s₁.sp 0
  writeReg s₁ Config.spIndex sp

/-- POP (R122). -/
def execPop (ra : Byte) (s : State) : Host.Outcome State Fault Refusal :=
  finishCycle Opcode.pop s (popHandler ra s)

end Sys2Proof.Machine
end

