-- ==== Sys2Proof/Machine/Cycle.lean ====
section
/-! DEFINITION. One fetch-decode-execute cycle as one step (spec/40_cycle.md R103), what Step does in a terminal run
state (10_state.md R43), and the placing of an instruction's bytes where the next fetch reads them. -/

namespace Sys2Proof.Machine

/-- The cycle of 40_cycle.md R103, for a state that is RUNNING (R91): fetch opcode and operands, look the handler up,
run it; each failing check enters its fault (R98, R99). -/
def runCycle (s : State) : Host.Outcome State Fault Refusal :=
  match fetch s with
  | .error e => .next (raise e s)
  | .ok f =>
    match lookup f.op f.a f.b with
    | none => .next (raise (.unsupportedOpcode f.op) s)
    | some i => exec i s

/-- Step: one cycle when RUNNING; in HALTED and FAULTED "Step has no effect" (10_state.md R43; 40_cycle.md R91; log
entry 12). -/
def stepOrStay (s : State) : Host.Outcome State Fault Refusal :=
  match s.run with
  | .running => runCycle s
  | .halted => .next s
  | .faulted _ => .next s

/-- Where `placeAtFetch` puts an instruction: at pc, or at 0 where the longest instruction does not fit between pc and
the end of memory (log entry 11). -/
def placeAddress (s : State) : Nat :=
  if s.pc + Config.maxLength ≤ Config.memSize then s.pc else 0

/-- Store bytes at rising addresses from `a`. -/
def Memory.writeBytes (m : Memory) (a : Nat) : List Byte → Memory
  | [] => m
  | b :: bs => Memory.writeBytes (m.write a b) (a + 1) bs

/-- The state whose next step fetches and runs the given bytes: they are stored at the place the next fetch reads, pc
points there and the run state is RUNNING. -/
def placeAtFetch (s : State) (bytes : List Byte) : State :=
  { s with
    pc := placeAddress s
    mem := s.mem.writeBytes (placeAddress s) bytes
    run := .running }

end Sys2Proof.Machine
end

