-- ==== Sys2Proof/Machine/Step.lean ====
section
/-! DEFINITION. The step of the machine (spec/10_state.md R43), and the state whose next step runs a given opcode-table
word. -/

namespace Sys2Proof.Machine

/-- Step: one instruction cycle, or no effect in a terminal run state. -/
def step (s : State) : Host.Outcome State Fault Refusal := stepOrStay s

/-- `s` with the instruction of an opcode-table word stored where `step` fetches next. -/
def State.withFetchWord (s : State) (nbits w : Nat) : State := placeAtFetch s (tableBytes nbits w)

end Sys2Proof.Machine
end

