-- ==== Sys2Proof/Machine/Ports.lean ====
section
/-! DEFINITION. The interfaces of the block to its environment (spec/10_state.md §7, R39 to R48). Reset is
`State.reset` and Step is `step`; here are Load, Run, Stop, the output port, the status port and the debug port. -/

namespace Sys2Proof.Machine

/-! ### Load (20_memory.md §5) -/

/-- Write an image's bytes at rising addresses from `a`, in order, with no gaps. A write out of range enters
InvalidAddress, keeps the writes before it and writes no later byte (20_memory.md R65, R66). -/
def loadBytes : List Byte → Nat → State → State
  | [], _, s => s
  | b :: bs, a, s =>
    match memWrite s a b with
    | .ok s' => loadBytes bs (a + 1) s'
    | .error e => raise e s

/-- Load: available once, "after Reset and before the first cycle" (20_memory.md R67). The state Reset leaves is the
only one it accepts; in any other the block defines no effect, and the model refuses (log entry 10). -/
def load (image : List Byte) (s : State) : Host.Outcome State Fault Refusal :=
  if s = State.reset then .next (loadBytes image Config.loadBase s) else .refused .loadNotAvailable

/-! ### Run and Stop -/

/-- Run, with a host stop after at most `k` cycles: Step is repeated until the run state is terminal or the host stops
it (10_state.md R43, R45). A stop changes nothing: the state it leaves is the one the last cycle left (log entry 17). -/
def runFor : Nat → State → Host.Outcome State Fault Refusal
  | 0, s => .next s
  | k + 1, s =>
    match s.run with
    | .running =>
      match step s with
      | .next t => runFor k t
      | .fault r => .fault r
      | .refused r => .refused r
    | .halted => .next s
    | .faulted _ => .next s

/-- The number of cycles completed in a run that is stopped after at most `k` cycles. HLT's cycle counts; a faulting
cycle does not (40_cycle.md R106). The block holds no such counter (60_exceptions.md R183): the host counts. -/
def completedCycles : Nat → State → Nat
  | 0, _ => 0
  | k + 1, s =>
    match s.run with
    | .running =>
      match step s with
      | .next t =>
        match t.run with
        | .faulted _ => 0
        | .running => completedCycles k t + 1
        | .halted => 1
      | .fault _ => 0
      | .refused _ => 0
    | .halted => 0
    | .faulted _ => 0

/-! ### Output, status and debug ports -/

/-- The bytes the output sink receives between two states of a run (10_state.md R44). -/
def delivered (before after : State) : List Byte := after.out.drop before.out.length

/-- The code of an error kind (60_exceptions.md R170; the spec's own numbers, log entry 18). -/
def errorCode : FatalError → Nat
  | .invalidAddress _ => 1
  | .invalidRegister _ => 2
  | .divisionByZero => 3
  | .unsupportedOperation _ => 4
  | .unsupportedOpcode _ => 5

/-- The status port (10_state.md R46): the run state, with the error kind and information when FAULTED. -/
def statusPort (s : State) : RunState := s.run

/-- The error code the status port shows, if the run state is FAULTED. -/
def statusCode (s : State) : Option Nat :=
  match s.run with
  | .faulted e => some (errorCode e)
  | .running => none
  | .halted => none

/-- The debug read port's view of pc (10_state.md R47). -/
def debugPc (s : State) : Nat := s.pc

/-- The debug read port's view of a register (10_state.md R47). -/
def debugReg (s : State) (i : Fin 8) : Byte := s.regs[i]

/-- The debug read port's view of a memory cell (10_state.md R47). -/
def debugCell (s : State) (a : Fin 256) : Byte := s.mem.read a

end Sys2Proof.Machine
end

