-- ==== Sys2Proof/Safety.lean ====
section
/-! DEFINITION. What a claim means by a well-kept state, a completed cycle, and a run without an error. -/

namespace Sys2Proof.Machine

/-- The invariant of the machine: memory is in canonical form and pc is in 0..256 (40_cycle.md R107, the spec's
derivation). It holds in HALTED and FAULTED states too. -/
abbrev State.Inv (s : State) : Prop := s.mem.wf ∧ s.pc ≤ Config.memSize

/-- The state has met no fatal error. -/
abbrev State.NoError (s : State) : Prop := ∀ e, s.run ≠ .faulted e

/-- A cycle that completes: it starts RUNNING and ends in `t` without a fault (40_cycle.md R99). -/
abbrev CycleCompletes (s t : State) : Prop := s.run = .running ∧ step s = .next t ∧ t.NoError

/-- A run that was stopped after some number of cycles. -/
def Reaches (s t : State) : Prop := ∃ k, runFor k s = .next t

/-- A safe run: no state of it has met a fatal error. -/
def SafeRun (s : State) : Prop := ∀ t, Reaches s t → t.NoError

end Sys2Proof.Machine
end

