-- ==== Sys2Proof/Certificates/Slice0/Obligations.lean ====
section
/-! DEFINITION. The statements for the provers, from the numbered rules of spec/. Where a clause rests on a decision or a
derivation the spec marks as its own, the docstring names the log entry (notes/assumptions/). -/

open Sys2Proof Sys2Proof.Machine

/-- In the reset state every register 0..6 holds 0, register 7 holds 244, pc is 0 and the run state is RUNNING. (R34,
R35) -/
def Obligations.ResetRegistersAndPc : Prop :=
  (∀ (i : Nat) (h : i < 8), State.reset.regs[i] = if i = 7 then 244 else 0) ∧
    State.reset.pc = 0 ∧ State.reset.run = .running

/-- At reset every address 0..255 reads 0x00 and nothing has been emitted. With no image loaded, the first step enters
FAULTED(UnsupportedOpcode, 0x00) and changes nothing else. The memory contents are the spec's decision D5 (log entry
1), the empty output and FAULTED its decision D11 (log entry 3). (Derived: 10_state.md section 6,
92_eei_decisions.md D5, 92_eei_decisions.md D11, 95_test_vectors.md C-2) -/
def Obligations.ResetMemoryReadsZeroAndFirstFetchFaults : Prop :=
  (∀ a, a < 256 → memRead State.reset a = .ok 0) ∧ State.reset.out = [] ∧
    step State.reset = .next { State.reset with run := .faulted (.unsupportedOpcode 0) }

/-- In the reset state memory is in canonical form and pc is at most 256. (Derived: 10_state.md section 6, 40_cycle.md
section 2) -/
def Obligations.ResetMeetsInvariant : Prop :=
  State.reset.Inv

/-- For every raw operand byte i: with i above 7 both a read and a write of x[i] raise InvalidRegister(i); with i in
0..7 the read and the write both succeed. (R24) -/
def Obligations.RegisterIndexAboveSevenRaises : Prop :=
  ∀ (s : State) (i v : Byte),
    (7 < i.toNat → readReg s i = .error (.invalidRegister i) ∧ writeReg s i v = .error (.invalidRegister i)) ∧
    (i.toNat ≤ 7 → (∃ w, readReg s i = .ok w) ∧ ∃ t, writeReg s i v = .ok t)

/-- For every valid index r and byte v the write x[r] <- v succeeds, and a read of x[r] then yields v, also after a
write to another register. (R25) -/
def Obligations.RegisterReadsBackWhatWasWritten : Prop :=
  ∀ (s : State) (r v : Byte), r.toNat < 8 →
    ∃ t, writeReg s r v = .ok t ∧ readReg t r = .ok v ∧
      ∀ (r' v' : Byte) (u : State), r' ≠ r → writeReg t r' v' = .ok u → readReg u r = .ok v

/-- For every address a in 0..255 and byte v the write succeeds, a read of a then yields v, also after a write to
another address, and every other address reads as before, with no other state changed. For a outside 0..255 the read
and the write both fail with InvalidAddress(a). (R53) -/
def Obligations.MemoryReadsBackWhatWasWritten : Prop :=
  ∀ (s : State) (a : Nat) (v : Byte),
    (a < 256 → ∃ t, memWrite s a v = .ok t ∧ memRead t a = .ok v ∧
      (∀ b, b ≠ a → memRead t b = memRead s b) ∧ t = { s with mem := t.mem } ∧
      ∀ (b : Nat) (w : Byte) (u : State), b ≠ a → memWrite t b w = .ok u → memRead u a = .ok v) ∧
    (256 ≤ a → memRead s a = .error (.invalidAddress a) ∧ memWrite s a v = .error (.invalidAddress a))

/-- If two memories are in canonical form and every address 0..255 reads the same byte in both, they are equal lists. It
says that State holds the spec's 256 cells and nothing more (the list form is the model's own, log entry 1).
(Derived: 20_memory.md section 1, 10_state.md section 1) -/
def Obligations.CanonicalMemoriesThatReadAlikeAreEqual : Prop :=
  ∀ m m' : Memory, m.wf → m'.wf → (∀ a, a < 256 → m.read a = m'.read a) → m = m'

/-- For all bytes A and B: ADD, SUB, MUL, INC, DEC and SHL give the exact result modulo 256; DIV and MOD give the
unsigned floor quotient and remainder when B is not 0 and raise DivisionByZero exactly when B is 0, whatever A is;
AND, OR, XOR and SHR give the unmasked result; a shift uses the whole value of B. Reducing a negative difference to
its residue (log entry 15) and the unreduced shift amount (log entry 16) are the spec's own derivations. (Derived:
44_alu.md section 1, 44_alu.md section 3, 00_scope.md section 4) -/
def Obligations.AluComputesUnsignedArithmeticModulo256 : Prop :=
  ∀ A B : Byte,
    (∃ r, alu .add A B = .ok r ∧ r.toNat = (A.toNat + B.toNat) % 256) ∧
    (∃ r, alu .sub A B = .ok r ∧ (r.toNat : Int) = ((A.toNat : Int) - B.toNat) % 256) ∧
    (∃ r, alu .mul A B = .ok r ∧ r.toNat = (A.toNat * B.toNat) % 256) ∧
    (∃ r, alu .inc A B = .ok r ∧ r.toNat = (A.toNat + 1) % 256) ∧
    (∃ r, alu .dec A B = .ok r ∧ (r.toNat : Int) = ((A.toNat : Int) - 1) % 256) ∧
    (∃ r, alu .and A B = .ok r ∧ r.toNat = A.toNat &&& B.toNat) ∧
    (∃ r, alu .or A B = .ok r ∧ r.toNat = A.toNat ||| B.toNat) ∧
    (∃ r, alu .xor A B = .ok r ∧ r.toNat = A.toNat ^^^ B.toNat) ∧
    (∃ r, alu .shl A B = .ok r ∧ r.toNat = (A.toNat * 2 ^ B.toNat) % 256) ∧
    (∃ r, alu .shr A B = .ok r ∧ r.toNat = A.toNat / 2 ^ B.toNat) ∧
    (B ≠ 0 → ∃ q r, alu .div A B = .ok q ∧ alu .mod A B = .ok r ∧
      A.toNat = q.toNat * B.toNat + r.toNat ∧ r.toNat < B.toNat) ∧
    (alu .div A B = .error .divisionByZero ↔ B = 0) ∧ (alu .mod A B = .error .divisionByZero ↔ B = 0)

/-- The ALU asked by name raises UnsupportedOperation exactly for names outside the twelve. A step never leads into
FAULTED(UnsupportedOperation) from a state that is not already there. The second half is the spec's derivation (log
entry 13). (Derived: 44_alu.md section 1, 60_exceptions.md section 1) -/
def Obligations.NoProgramReachesUnsupportedOperation : Prop :=
  (∀ (name : String) (A B : Byte), aluByName name A B = .error (.unsupportedOperation name) ↔
      name ∉ ["ADD", "SUB", "MUL", "DIV", "MOD", "INC", "DEC", "AND", "OR", "XOR", "SHL", "SHR"]) ∧
    ∀ (s t : State) (name : String), s.run ≠ .faulted (.unsupportedOperation name) → step s = .next t →
      t.run ≠ .faulted (.unsupportedOperation name)

/-- The byte sequence 82 00 08 82 01 09 A0 00 01 47 00 01 decodes to LDI R0,8; LDI R1,9; ADD R0,R1; PRN R0; HLT, of
lengths 3, 3, 3, 2, 1; 0x82 has N = 2, P = 0; 0xA0 has N = 2, P = 0; 0x47 has N = 1, P = 0; 0x01 has N = 0, P = 0.
(R86) -/
def Obligations.SourceProgramBytesDecode : Prop :=
  decodeAll 5 [0x82, 0, 8, 0x82, 1, 9, 0xA0, 0, 1, 0x47, 0, 0x01] =
      .ok [.ldi 0 8, .ldi 1 9, .add 0 1, .prn 0, .hlt] ∧
    [Instr.ldi 0 8, .ldi 1 9, .add 0 1, .prn 0, .hlt].map (fun i => (encode i).length) = [3, 3, 3, 2, 1] ∧
    (operandCount 0x82 = 2 ∧ pcSetBit 0x82 = false) ∧ (operandCount 0xA0 = 2 ∧ pcSetBit 0xA0 = false) ∧
    (operandCount 0x47 = 1 ∧ pcSetBit 0x47 = false) ∧ (operandCount 0x01 = 0 ∧ pcSetBit 0x01 = false)

/-- The bytes 45 02, 46 03 and 54 01 decode to PUSH R2, POP R3 and JMP R1; A5 02 00 and A6 02 00 to INC R2,R0 and DEC
R2,R0; A1, A2, A3, A4, A8, AA, AB, AC and AD, each followed by 05 02, to SUB, MUL, DIV, MOD, AND, OR, XOR, SHL and
SHR of R5,R2. These fourteen opcode bytes are the spec's decision D3 (log entry 4). (Derived: 30_encoding.md section
3, 92_eei_decisions.md D3) -/
def Obligations.DecidedOpcodeBytesDecode : Prop :=
  [[0x45, 2], [0x46, 3], [0x54, 1]].map decode = [.ok (.push 2, []), .ok (.pop 3, []), .ok (.jmp 1, [])] ∧
    [[0xA5, 2, 0], [0xA6, 2, 0]].map decode = [.ok (.inc 2 0, []), .ok (.dec 2 0, [])] ∧
    [[0xA1, 5, 2], [0xA2, 5, 2], [0xA3, 5, 2], [0xA4, 5, 2]].map decode =
      [.ok (.sub 5 2, []), .ok (.mul 5 2, []), .ok (.div 5 2, []), .ok (.mod 5 2, [])] ∧
    [[0xA8, 5, 2], [0xAA, 5, 2], [0xAB, 5, 2]].map decode =
      [.ok (.and 5 2, []), .ok (.or 5 2, []), .ok (.xor 5 2, [])] ∧
    [[0xAC, 5, 2], [0xAD, 5, 2]].map decode = [.ok (.shl 5 2, []), .ok (.shr 5 2, [])]

/-- For every instruction bits 7:6 of its opcode equal its operand count; bit 4 is 1 for JMP and 0 for every other; the
18 values are pairwise distinct; 0xFF is not assigned; HLT, LDI, PRN and ADD have the source's values. (R82) -/
def Obligations.OpcodeAssignmentMeetsTheDocumentsConstraints : Prop :=
  (∀ i : Instr, (opcodeOf i).toNat / 64 =
      match i with
      | .hlt => 0
      | .prn _ => 1
      | .push _ => 1
      | .pop _ => 1
      | .jmp _ => 1
      | _ => 2) ∧
    (∀ i : Instr, (opcodeOf i).getLsbD 4 = true ↔ ∃ ra, i = .jmp ra) ∧
    (∀ a b : Byte, ([Instr.hlt, .ldi a b, .prn a, .push a, .pop a, .jmp a, .inc a b, .dec a b, .add a b, .sub a b,
      .mul a b, .div a b, .mod a b, .and a b, .or a b, .xor a b, .shl a b, .shr a b].map opcodeOf).Nodup) ∧
    (∀ i : Instr, opcodeOf i ≠ 0xFF) ∧
    (∀ a b : Byte, opcodeOf .hlt = 0x01 ∧ opcodeOf (.ldi a b) = 0x82 ∧ opcodeOf (.prn a) = 0x47 ∧
      opcodeOf (.add a b) = 0xA0)

/-- For every list of bytes, every instruction with every operand byte, and every rest: decode answers (i, rest) if and
only if the bytes are encode i followed by rest. No operand bit is dropped, no byte of the rest is consumed, and no
other byte string decodes to i. (Derived: 30_encoding.md section 1, 30_encoding.md section 2, 30_encoding.md section
3) -/
def Obligations.DecodeReadsExactlyTheEncodings : Prop :=
  ∀ (bytes : List Byte) (i : Instr) (rest : List Byte),
    decode bytes = .ok (i, rest) ↔ bytes = encode i ++ rest

/-- For every list of instructions, the concatenation of their encodings decodes one instruction after another to the
same list. (Derived: 30_encoding.md section 1, 20_memory.md section 5) -/
def Obligations.ProgramImageDecodesToItsInstructions : Prop :=
  ∀ is : List Instr, decodeAll is.length (encodeAll is) = .ok is

/-- The lookup answers no instruction exactly for the opcode bytes outside the 18 of the opcode map, whatever the
operands; there are 238 of them. Fourteen of the values are the spec's decision D3 (log entry 4). (Derived:
30_encoding.md section 3, 92_eei_decisions.md D3) -/
def Obligations.ExactlyEighteenOpcodesHaveAHandler : Prop :=
  (∀ op a b : Byte, lookup op a b = none ↔
      op ∉ [0x01, 0x82, 0x47, 0x45, 0x46, 0x54, 0xA5, 0xA6, 0xA0, 0xA1, 0xA2, 0xA3, 0xA4, 0xA8, 0xAA, 0xAB, 0xAC, 0xAD]) ∧
    ((List.range 256).filter (fun n => (lookup (BitVec.ofNat 8 n) 0 0).isNone)).length = 238

/-- For every RUNNING state and every byte string that memory holds from pc on: if it decodes to i (well formed or not),
then step is exec i at that state. Step adds nothing around exec: exec includes the pc update and the fault entry.
(Derived: 40_cycle.md section 1, 30_encoding.md section 1) -/
def Obligations.StepRunsTheDecodedInstruction : Prop :=
  ∀ (s : State) (bytes : List Byte) (i : Instr) (rest : List Byte), s.run = .running →
    (∀ (k : Nat) (h : k < bytes.length), memRead s (s.pc + k) = .ok bytes[k]) →
    decode bytes = .ok (i, rest) → step s = exec i s

/-- For every state and every opcode-table word that decodes to i, the next step of the state with that word placed at
the fetch is exec i at that state, and registers and output are the old ones. How the word is placed is the model's
choice (log entry 11). (Derived: 40_cycle.md section 1) -/
def Obligations.StepRunsTheFetchWord : Prop :=
  ∀ (s : State) (nbits w : Nat) (i : Instr), decodeTableWord nbits w = some i →
    step (s.withFetchWord nbits w) = exec i (s.withFetchWord nbits w) ∧
    (s.withFetchWord nbits w).regs = s.regs ∧ (s.withFetchWord nbits w).out = s.out

/-- For every RUNNING state with pc at least 256, step is the same state with run FAULTED(InvalidAddress, pc). FAULTED
and the unchanged state are the spec's decisions D11 and D2 (log entry 3). (Derived: 40_cycle.md section 1,
60_exceptions.md section 1, 60_exceptions.md section 2) -/
def Obligations.OpcodeFetchPastMemoryFaults : Prop :=
  ∀ s : State, s.run = .running → 256 ≤ s.pc →
    step s = .next { s with run := .faulted (.invalidAddress s.pc) }

/-- For every RUNNING state whose opcode at pc is in range and whose last operand address pc + N is above 255, step is
the same state with run FAULTED(InvalidAddress, 256), whether or not the opcode has a handler, N = 3 included. The N
= 3 read is the spec's decision D4 (log entry 5), the order D9 (log entry 9), the unchanged state D2 (log entry 3).
(Derived: 40_cycle.md section 1, 40_cycle.md section 2, 92_eei_decisions.md D4, 95_test_vectors.md C-4) -/
def Obligations.OperandFetchPastMemoryFaults : Prop :=
  ∀ (s : State) (op : Byte), s.run = .running → memRead s s.pc = .ok op → 255 < s.pc + op.toNat / 64 →
    step s = .next { s with run := .faulted (.invalidAddress 256) }

/-- For every RUNNING state whose opcode byte at pc is the opcode of no instruction and whose operand bytes lie below
256, step is the same state with run FAULTED(UnsupportedOpcode, op): no register, memory cell, pc or output changes.
FAULTED and the unchanged state are the spec's decisions (log entry 3). (Derived: 30_encoding.md section 3,
40_cycle.md section 1, 60_exceptions.md section 1) -/
def Obligations.UnregisteredOpcodeFaults : Prop :=
  ∀ (s : State) (op : Byte), s.run = .running → memRead s s.pc = .ok op → s.pc + op.toNat / 64 ≤ 255 →
    (∀ i : Instr, opcodeOf i ≠ op) → step s = .next { s with run := .faulted (.unsupportedOpcode op) }

/-- For every state that is not RUNNING, step answers the same state, any run answers the same state, and no cycle is
completed. FAULTED as a terminal state is the spec's decision D11 (log entries 3 and 12). (Derived: 10_state.md
section 7, 40_cycle.md section 1, 60_exceptions.md section 2) -/
def Obligations.TerminalStatesStayAsTheyAre : Prop :=
  ∀ (s : State) (k : Nat), s.run ≠ .running →
    step s = .next s ∧ runFor k s = .next s ∧ completedCycles k s = 0

/-- For every cycle that completes without a fault, of an instruction whose opcode byte has bit 4 clear, the new pc is
the old pc plus bits 7:6 of the opcode plus 1. (R101) -/
def Obligations.PcAdvancesByOperandCountPlusOne : Prop :=
  ∀ (s t : State) (op : Byte), CycleCompletes s t → memRead s s.pc = .ok op → op.getLsbD 4 = false →
    t.pc = s.pc + op.toNat / 64 + 1

/-- For every cycle that completes without a fault, of an instruction whose opcode byte has bit 4 set, pc takes the
value of the register named by the byte after the opcode, and no register, memory cell, run state or output changes.
(Derived: 43_jump.md, 40_cycle.md section 1, 30_encoding.md section 1, 30_encoding.md section 3) -/
def Obligations.PcSetBitMeansPcTakesTheRegister : Prop :=
  ∀ (s t : State) (op : Byte), CycleCompletes s t → memRead s s.pc = .ok op → op.getLsbD 4 = true →
    ∃ ra v : Byte, memRead s (s.pc + 1) = .ok ra ∧ readReg s ra = .ok v ∧ t = { s with pc := v.toNat }

/-- For every state exec HLT answers the state with run HALTED and pc + 1, all else unchanged. The advance is the spec's
decision D8 (log entry 8). (Derived: 41_hlt_ldi_prn.md (HLT), 92_eei_decisions.md D8) -/
def Obligations.HltHaltsAndAdvances : Prop :=
  ∀ s : State, exec .hlt s = .next { s with run := .halted, pc := s.pc + 1 }

/-- For every state exec HLT answers a state whose run state is HALTED, in which every further step and run answers that
same state and completes no cycle. (R97) -/
def Obligations.HltIsANormalTerminalState : Prop :=
  ∀ s : State, ∃ t, exec .hlt s = .next t ∧ t.run = .halted ∧ step t = .next t ∧
    ∀ k, runFor k t = .next t ∧ completedCycles k t = 0

/-- For every state, every register operand 0..7 (R7 included) and every immediate, exec LDI answers the state with x[a]
= imm and pc + 3, all else unchanged. (Derived: 41_hlt_ldi_prn.md (LDI)) -/
def Obligations.LdiLoadsTheImmediate : Prop :=
  ∀ (s : State) (ra imm : Byte) (h : ra.toNat < 8),
    exec (.ldi ra imm) s = .next { s with regs := s.regs.set ra.toNat imm, pc := s.pc + 3 }

/-- For every state and register operand 0..7 exec PRN answers the state with x[a] appended to out and pc + 2, all else
unchanged. (Derived: 41_hlt_ldi_prn.md (PRN)) -/
def Obligations.PrnEmitsTheRegister : Prop :=
  ∀ (s : State) (ra : Byte) (h : ra.toNat < 8),
    exec (.prn ra) s = .next { s with out := s.out ++ [s.regs[ra.toNat]], pc := s.pc + 2 }

/-- For every state and register operand 0..7 exec PUSH answers a state in which SP is the old SP - 1 modulo 256, the
byte at the new SP is x[a] (the new SP itself for PUSH R7: the spec's decision D7, log entry 7), every other address
reads as before, pc is + 2, and every other register, the run state and the output are unchanged. (Derived:
42_stack.md (PUSH), 92_eei_decisions.md D7) -/
def Obligations.PushStoresAtTheDecrementedSp : Prop :=
  ∀ (s : State) (ra : Byte) (h : ra.toNat < 8), ∃ t, exec (.push ra) s = .next t ∧
    t = { s with regs := s.regs.set 7 (s.regs[7] - 1), mem := t.mem, pc := s.pc + 2 } ∧
    ∀ b, memRead t b =
      if b = (s.regs[7] - 1).toNat then .ok (if ra = 7 then s.regs[7] - 1 else s.regs[ra.toNat]) else memRead s b

/-- For every state exec POP answers, for a in 0..6, the state with x[a] = M[SP], SP + 1 modulo 256 and pc + 2; for POP
R7 the state with SP = M[SP] + 1 modulo 256 and pc + 2 (the spec's decision D7, log entry 7); all else, all of
memory included, unchanged. (Derived: 42_stack.md (POP), 92_eei_decisions.md D7) -/
def Obligations.PopLoadsAndIncrementsSp : Prop :=
  ∀ (s : State) (ra : Byte) (h : ra.toNat < 8), ∃ v, memRead s s.regs[7].toNat = .ok v ∧
    (ra ≠ 7 → exec (.pop ra) s =
      .next { s with regs := (s.regs.set ra.toNat v).set 7 (s.regs[7] + 1), pc := s.pc + 2 }) ∧
    (ra = 7 → exec (.pop ra) s = .next { s with regs := s.regs.set 7 (v + 1), pc := s.pc + 2 })

/-- For every state and register operand 0..7 exec JMP answers the state with pc = x[a], all else unchanged, whatever
the target. (Derived: 43_jump.md (JMP)) -/
def Obligations.JmpSetsPcToTheRegister : Prop :=
  ∀ (s : State) (ra : Byte) (h : ra.toNat < 8),
    exec (.jmp ra) s = .next { s with pc := s.regs[ra.toNat].toNat }

/-- For every state and register operands 0..7 (equal ones and R7 included) exec ADD answers the state with x[a] = x[a]
+ x[b] modulo 256 and pc + 3, all else unchanged. (Derived: 44_alu.md section 1, 44_alu.md section 2 (ADD)) -/
def Obligations.AddWrapsModulo256 : Prop :=
  ∀ (s : State) (ra rb : Byte) (ha : ra.toNat < 8) (hb : rb.toNat < 8),
    exec (.add ra rb) s = .next
      { s with regs := s.regs.set ra.toNat (s.regs[ra.toNat] + s.regs[rb.toNat]), pc := s.pc + 3 }

/-- For every state and register operands 0..7 (equal ones and R7 included) exec SUB answers the state with x[a] = x[a]
- x[b] modulo 256 and pc + 3, all else unchanged. The residue of a negative difference is the spec's derivation (log
entry 15). (Derived: 44_alu.md section 1, 44_alu.md section 2 (SUB)) -/
def Obligations.SubWrapsModulo256 : Prop :=
  ∀ (s : State) (ra rb : Byte) (ha : ra.toNat < 8) (hb : rb.toNat < 8),
    exec (.sub ra rb) s = .next
      { s with regs := s.regs.set ra.toNat (s.regs[ra.toNat] - s.regs[rb.toNat]), pc := s.pc + 3 }

/-- For every state and register operands 0..7 (equal ones and R7 included) exec MUL answers the state with x[a] = the
low 8 bits of x[a] * x[b] and pc + 3, all else unchanged. (Derived: 44_alu.md section 1, 44_alu.md section 2 (MUL)) -/
def Obligations.MulKeepsTheLowByte : Prop :=
  ∀ (s : State) (ra rb : Byte) (ha : ra.toNat < 8) (hb : rb.toNat < 8),
    exec (.mul ra rb) s = .next
      { s with regs := s.regs.set ra.toNat (s.regs[ra.toNat] * s.regs[rb.toNat]), pc := s.pc + 3 }

/-- For every state and register operands 0..7 (equal ones and R7 included) with x[b] not 0, exec DIV answers the state
with x[a] = the unsigned floor quotient of x[a] by x[b] and pc + 3, exec MOD the state with x[a] = the unsigned
remainder and pc + 3, all else unchanged. (Derived: 44_alu.md section 1, 44_alu.md section 2 (DIV, MOD)) -/
def Obligations.DivAndModGiveQuotientAndRemainder : Prop :=
  ∀ (s : State) (ra rb : Byte) (ha : ra.toNat < 8) (hb : rb.toNat < 8), s.regs[rb.toNat] ≠ 0 →
    exec (.div ra rb) s = .next
      { s with regs := s.regs.set ra.toNat (BitVec.ofNat 8 (s.regs[ra.toNat].toNat / s.regs[rb.toNat].toNat)), pc := s.pc + 3 } ∧
    exec (.mod ra rb) s = .next
      { s with regs := s.regs.set ra.toNat (BitVec.ofNat 8 (s.regs[ra.toNat].toNat % s.regs[rb.toNat].toNat)), pc := s.pc + 3 }

/-- For every state and register operands 0..7 (equal ones and R7 included) exec INC answers the state with x[a] = x[a]
+ 1 modulo 256 and pc + 3, all else unchanged. Reading and validating operand_b is the spec's decision D6 (log entry
6). (Derived: 44_alu.md section 1, 44_alu.md section 2 (INC), 92_eei_decisions.md D6) -/
def Obligations.IncAddsOneModulo256 : Prop :=
  ∀ (s : State) (ra rb : Byte) (ha : ra.toNat < 8) (hb : rb.toNat < 8),
    exec (.inc ra rb) s = .next
      { s with regs := s.regs.set ra.toNat (s.regs[ra.toNat] + 1), pc := s.pc + 3 }

/-- For every state and register operands 0..7 (equal ones and R7 included) exec DEC answers the state with x[a] = x[a]
- 1 modulo 256 and pc + 3, all else unchanged. Reading and validating operand_b is the spec's decision D6 (log entry
6). The residue of 0 - 1 is the spec's derivation (log entry 15). (Derived: 44_alu.md section 1, 44_alu.md section 2
(DEC), 92_eei_decisions.md D6) -/
def Obligations.DecSubtractsOneModulo256 : Prop :=
  ∀ (s : State) (ra rb : Byte) (ha : ra.toNat < 8) (hb : rb.toNat < 8),
    exec (.dec ra rb) s = .next
      { s with regs := s.regs.set ra.toNat (s.regs[ra.toNat] - 1), pc := s.pc + 3 }

/-- For every state and register operands 0..7 (equal ones and R7 included) exec AND, exec OR and exec XOR answer the
state with x[a] = x[a] AND x[b], x[a] OR x[b], x[a] XOR x[b] and pc + 3, all else unchanged. (Derived: 44_alu.md
section 1, 44_alu.md section 2 (AND, OR, XOR)) -/
def Obligations.AndOrXorAreBitwise : Prop :=
  ∀ (s : State) (ra rb : Byte) (ha : ra.toNat < 8) (hb : rb.toNat < 8),
    exec (.and ra rb) s = .next { s with regs := s.regs.set ra.toNat (s.regs[ra.toNat] &&& s.regs[rb.toNat]), pc := s.pc + 3 } ∧
    exec (.or ra rb) s = .next { s with regs := s.regs.set ra.toNat (s.regs[ra.toNat] ||| s.regs[rb.toNat]), pc := s.pc + 3 } ∧
    exec (.xor ra rb) s = .next { s with regs := s.regs.set ra.toNat (s.regs[ra.toNat] ^^^ s.regs[rb.toNat]), pc := s.pc + 3 }

/-- For every state and register operands 0..7 (equal ones and R7 included) exec SHL answers the state with x[a] shifted
left by the whole value of x[b], not reduced modulo 8, and masked, exec SHR the state with x[a] shifted right
logically by the whole value of x[b], and pc + 3, all else unchanged. The unreduced amount and the logical shift are
the spec's derivations (log entry 16). (Derived: 44_alu.md section 1, 44_alu.md section 2 (SHL, SHR)) -/
def Obligations.ShiftsUseTheWholeRegister : Prop :=
  ∀ (s : State) (ra rb : Byte) (ha : ra.toNat < 8) (hb : rb.toNat < 8),
    exec (.shl ra rb) s = .next { s with regs := s.regs.set ra.toNat (s.regs[ra.toNat] <<< s.regs[rb.toNat].toNat), pc := s.pc + 3 } ∧
    exec (.shr ra rb) s = .next { s with regs := s.regs.set ra.toNat (s.regs[ra.toNat] >>> s.regs[rb.toNat].toNat), pc := s.pc + 3 }

/-- For every state, every operand_a above 7 and every operand_b, each of LDI, PRN, PUSH, POP, JMP and the twelve ALU
instructions answers the same state with run FAULTED(InvalidRegister, a): SP not moved, nothing stored or emitted,
pc unchanged, also where operand_b or the divisor is bad too. The unchanged state, FAULTED and the order are the
spec's decisions D2, D11 and D9 (log entries 3 and 9). (Derived: 60_exceptions.md section 1, 60_exceptions.md
section 2, 40_cycle.md section 1, 95_test_vectors.md section 2.2) -/
def Obligations.InvalidOperandAFaultsPrecisely : Prop :=
  ∀ (s : State) (a b : Byte), 7 < a.toNat →
    ∀ i ∈ [Instr.ldi a b, .prn a, .push a, .pop a, .jmp a, .inc a b, .dec a b, .add a b, .sub a b, .mul a b, .div a b,
      .mod a b, .and a b, .or a b, .xor a b, .shl a b, .shr a b],
      exec i s = .next { s with run := .faulted (.invalidRegister a) }

/-- For every state, every operand_a in 0..7 and operand_b above 7, each of the twelve ALU instructions answers the same
state with run FAULTED(InvalidRegister, b). That INC and DEC check operand_b is the spec's decision D6 (log entry
6); the unchanged state and FAULTED are D2 and D11 (log entry 3). (Derived: 60_exceptions.md section 1,
60_exceptions.md section 2, 44_alu.md section 1, 92_eei_decisions.md D6) -/
def Obligations.InvalidOperandBFaultsPrecisely : Prop :=
  ∀ (s : State) (a b : Byte), a.toNat < 8 → 7 < b.toNat →
    ∀ i ∈ [Instr.inc a b, .dec a b, .add a b, .sub a b, .mul a b, .div a b,
      .mod a b, .and a b, .or a b, .xor a b, .shl a b, .shr a b],
      exec i s = .next { s with run := .faulted (.invalidRegister b) }

/-- For every state and register operands 0..7 with x[b] = 0, DIV and MOD answer the same state with run
FAULTED(DivisionByZero), whatever x[a] is, a = b included. The unchanged state and FAULTED are the spec's decisions
D2 and D11 (log entry 3). (Derived: 44_alu.md section 1, 60_exceptions.md section 1, 60_exceptions.md section 2) -/
def Obligations.DivisionByZeroFaultsPrecisely : Prop :=
  ∀ (s : State) (ra rb : Byte) (_ : ra.toNat < 8) (hb : rb.toNat < 8), s.regs[rb.toNat] = 0 →
    exec (.div ra rb) s = .next { s with run := .faulted .divisionByZero } ∧
    exec (.mod ra rb) s = .next { s with run := .faulted .divisionByZero }

/-- For every RUNNING state whose step answers a FAULTED state, that state is the old one with only run changed:
registers, memory, pc and output are as before the cycle. It is the spec's decision D2 (log entry 3). (Derived:
60_exceptions.md section 2, 92_eei_decisions.md D2) -/
def Obligations.FaultingCycleChangesOnlyTheRunState : Prop :=
  ∀ (s t : State) (e : FatalError), s.run = .running → step s = .next t → t.run = .faulted e →
    t = { s with run := .faulted e }

/-- The code of a fatal error is 1 exactly for InvalidAddress, 2 for InvalidRegister, 3 for DivisionByZero, 4 for
UnsupportedOperation, 5 for UnsupportedOpcode, and the status port shows the error and its code when FAULTED. The
numbers are the spec's decision D16 (log entry 18). (Derived: 60_exceptions.md section 1, 10_state.md section 7,
92_eei_decisions.md D16) -/
def Obligations.ErrorCodesTellTheFiveKindsApart : Prop :=
  (∀ e : FatalError, (errorCode e = 1 ↔ ∃ a, e = .invalidAddress a) ∧ (errorCode e = 2 ↔ ∃ i, e = .invalidRegister i) ∧
      (errorCode e = 3 ↔ e = .divisionByZero) ∧ (errorCode e = 4 ↔ ∃ n, e = .unsupportedOperation n) ∧
      (errorCode e = 5 ↔ ∃ op, e = .unsupportedOpcode op)) ∧
    ∀ (s : State) (e : FatalError), s.run = .faulted e → statusPort s = .faulted e ∧ statusCode s = some (errorCode e)

/-- For every state step answers a next state. That every error the spec names is a next state of the model and never a
fault of the step is the model's choice on the spec's decision D11 (log entry 3) and its reading that nothing is
left to stop on (log entry 14); that a step in HALTED or FAULTED answers the same state as a next state is its
reading too (log entry 12). (Derived: 40_cycle.md section 1, 60_exceptions.md section 2, 10_state.md section 7,
92_eei_decisions.md D11) -/
def Obligations.EveryStepAnswersANextState : Prop :=
  ∀ s : State, ∃ t, step s = .next t

/-- For every state, reachable or not, in which memory is in canonical form and pc is at most 256: if step answers a
next state, that state meets the same invariant. The bound on pc is the spec's derivation (log entry 2). (Derived:
40_cycle.md section 2, 20_memory.md section 1) -/
def Obligations.StepKeepsInvariant : Prop :=
  ∀ s t : State, s.Inv → step s = .next t → t.Inv

/-- For every state and its next state: either memory is unchanged, or the machine was RUNNING and the step was exec of
the PUSH whose two bytes stand at pc. (Derived: 20_memory.md section 1) -/
def Obligations.OnlyPushChangesMemory : Prop :=
  ∀ s t : State, step s = .next t → t.mem = s.mem ∨
    ∃ ra, s.run = .running ∧ memRead s s.pc = .ok (opcodeOf (.push ra)) ∧ memRead s (s.pc + 1) = .ok ra ∧
      step s = exec (.push ra) s

/-- For every cycle that completes whose opcode is PRN (0x47), the byte after the opcode names a register, the output
grows by exactly one byte, the value of that register before the cycle, and that byte is what the sink receives.
Every step that is not a completed PRN cycle leaves the output as it was and delivers nothing: another instruction's
cycle, a cycle that faults (a PRN with an operand above 7 and a PRN at 255 included), and a step of a HALTED or
FAULTED machine, whatever byte stands at pc. That a faulting cycle emits nothing is the spec's decision D2 (log
entry 3); that a step in FAULTED has no effect is its decision D11 (log entry 3), and that such a step is a next
state is the model's reading (log entry 12). (Derived: 10_state.md section 4, 10_state.md section 7,
41_hlt_ldi_prn.md (PRN), 40_cycle.md section 1, 92_eei_decisions.md D2, 92_eei_decisions.md D11) -/
def Obligations.EachCompletedPrnDeliversExactlyOneByte : Prop :=
  (∀ s t : State, CycleCompletes s t → memRead s s.pc = .ok 0x47 →
      ∃ ra v, memRead s (s.pc + 1) = .ok ra ∧ readReg s ra = .ok v ∧ t.out = s.out ++ [v] ∧ delivered s t = [v]) ∧
    ∀ s t : State, step s = .next t → ¬ (CycleCompletes s t ∧ memRead s s.pc = .ok 0x47) →
      t.out = s.out ∧ delivered s t = []

/-- For every instruction, state and next state of exec: every register 0..7 other than those the table lists as written
(x[a] for LDI and the ALU instructions; x[7] for PUSH; x[a] and x[7] for POP; none for HLT, PRN and JMP) is
unchanged, faults included. (Derived: 10_state.md section 2) -/
def Obligations.OnlyTheNamedRegistersAreWritten : Prop :=
  ∀ (i : Instr) (s t : State) (r : Nat) (hr : r < 8), exec i s = .next t →
    r ∉ (match i with
      | .hlt => []
      | .prn _ => []
      | .jmp _ => []
      | .push _ => [7]
      | .pop ra => [ra.toNat, 7]
      | .ldi ra _ => [ra.toNat]
      | .inc ra _ => [ra.toNat]
      | .dec ra _ => [ra.toNat]
      | .add ra _ => [ra.toNat]
      | .sub ra _ => [ra.toNat]
      | .mul ra _ => [ra.toNat]
      | .div ra _ => [ra.toNat]
      | .mod ra _ => [ra.toNat]
      | .and ra _ => [ra.toNat]
      | .or ra _ => [ra.toNat]
      | .xor ra _ => [ra.toNat]
      | .shl ra _ => [ra.toNat]
      | .shr ra _ => [ra.toNat]
      : List Nat) → t.regs[r] = s.regs[r]

/-- For every RUNNING state and its next state: the next state is RUNNING, or it is HALTED and the opcode at pc was HLT
(0x01), or it is FAULTED. (Derived: 40_cycle.md section 2, 70_reset_and_hazards.md section 5) -/
def Obligations.OnlyHltOrAnErrorEndsTheRun : Prop :=
  ∀ s t : State, s.run = .running → step s = .next t →
    t.run = .running ∨ (t.run = .halted ∧ memRead s s.pc = .ok 0x01) ∨ ∃ e, t.run = .faulted e

/-- For every state and next state there are emitted bytes e such that the new output is the old output followed by e,
and the same step from the state with any other earlier output o answers the same next state with output o followed
by e. (Derived: 10_state.md section 4) -/
def Obligations.OutputIsNeverReadBack : Prop :=
  ∀ s t : State, step s = .next t → ∃ e : List Byte, t.out = s.out ++ e ∧
    ∀ o : List Byte, step { s with out := o } = .next { t with out := o ++ e }

/-- For every state and r, r' in 0..6, exec PUSH r followed by exec POP r' answers a state in which x[r'] is the old
x[r], every other register, SP included, is unchanged, and pc is + 4. It holds for every starting SP, 0 and 255
included (the spec's derivation). (Derived: 42_stack.md (laws), 90_conflicts.md C8) -/
def Obligations.PushThenPopRestoresTheValueAndSp : Prop :=
  ∀ (s : State) (r r' : Byte) (h : r.toNat < 7) (h' : r'.toNat < 7), ∃ t u,
    exec (.push r) s = .next t ∧ exec (.pop r') t = .next u ∧
    u.regs = s.regs.set r'.toNat s.regs[r.toNat] ∧ u.pc = s.pc + 4 ∧ u.run = s.run ∧ u.out = s.out

/-- For every state, source registers a, b, c in 0..6 and pairwise distinct destinations p, q, r in 0..6: after PUSH a,
PUSH b, PUSH c, POP p, POP q, POP r the registers are the old ones with x[p] = old x[c], x[q] = old x[b] and x[r] =
old x[a]. It is the spec's derivation from the two instructions. (Derived: 42_stack.md (laws)) -/
def Obligations.ThreePushesPopInReverseOrder : Prop :=
  ∀ (s : State) (a b c p q r : Byte) (ha : a.toNat < 7) (hb : b.toNat < 7) (hc : c.toNat < 7)
    (hp : p.toNat < 7) (hq : q.toNat < 7) (hr : r.toNat < 7), p ≠ q → p ≠ r → q ≠ r →
    ∃ s₁ s₂ s₃ s₄ s₅ s₆, exec (.push a) s = .next s₁ ∧ exec (.push b) s₁ = .next s₂ ∧ exec (.push c) s₂ = .next s₃ ∧
      exec (.pop p) s₃ = .next s₄ ∧ exec (.pop q) s₄ = .next s₅ ∧ exec (.pop r) s₅ = .next s₆ ∧
      s₆.regs = ((s.regs.set p.toNat s.regs[c.toNat]).set q.toNat s.regs[b.toNat]).set r.toNat s.regs[a.toNat]

/-- For every RUNNING state with PUSH a at pc, a in 0..6, x[a] = 0x01 (HLT) and SP - 1 equal to pc + 2: the step after
the PUSH runs the pushed HLT, whatever stood there before, and ends HALTED with pc + 3. Fetch coherence is the
spec's derivation; the PUSH opcode byte is its decision D3 (log entry 4), pc after HLT D8 (log entry 8). (Derived:
20_memory.md section 4, 70_reset_and_hazards.md section 3, 92_eei_decisions.md D3, 92_eei_decisions.md D8) -/
def Obligations.PushedCodeIsFetchedByTheNextCycle : Prop :=
  ∀ (s : State) (a : Byte) (h : a.toNat < 7), s.run = .running → memRead s s.pc = .ok 0x45 →
    memRead s (s.pc + 1) = .ok a → s.regs[a.toNat] = 0x01 → (s.regs[7] - 1).toNat = s.pc + 2 →
    ∃ t u, step s = .next t ∧ step t = .next u ∧ u.run = .halted ∧ u.pc = s.pc + 3

/-- For every image of at most 256 bytes, loading it after Reset answers a state in which byte i of the image stands at
address i, every address from the image's length to 255 reads what it read at reset, and registers, pc, run and
output are those of reset; an empty image changes nothing. For every image over 256 bytes, bytes 0..255 of the image
stand at their addresses and registers, pc and output are those of reset: this second half is the state after a
failed Load, which is the spec's decision D12 (log entry 10). That Load answers in the reset state is the model's
choice (log entry 10); what an address past the image reads at reset is the spec's decision D5 (log entry 1).
(Derived: 20_memory.md section 5, 92_eei_decisions.md D12) -/
def Obligations.LoadWritesTheImageFromAddressZero : Prop :=
  (∀ image : List Byte, image.length ≤ 256 → ∃ t, load image State.reset = .next t ∧
      (∀ (i : Nat) (h : i < image.length), memRead t i = .ok image[i]) ∧
      (∀ i, image.length ≤ i → memRead t i = memRead State.reset i) ∧
      t = { State.reset with mem := t.mem } ∧ (image = [] → t = State.reset)) ∧
    ∀ image : List Byte, 256 < image.length → ∃ t, load image State.reset = .next t ∧
      (∀ i, i < 256 → memRead t i = .ok (image.getD i 0)) ∧ t.regs = State.reset.regs ∧
      t.pc = State.reset.pc ∧ t.out = State.reset.out

/-- For every image of more than 256 bytes, loading it after Reset answers a state whose memory holds its first 256
bytes, whose run state is FAULTED(InvalidAddress, 256), and in which every run answers that same state and completes
no cycle. The run state is the spec's decision D12 (log entry 10). (Derived: 20_memory.md section 5,
92_eei_decisions.md D12, 95_test_vectors.md L-3) -/
def Obligations.OverlongImageFaultsAndNothingRuns : Prop :=
  ∀ image : List Byte, 256 < image.length → ∃ t, load image State.reset = .next t ∧
    (∀ i, i < 256 → memRead t i = .ok (image.getD i 0)) ∧
    t = { State.reset with mem := t.mem, run := .faulted (.invalidAddress 256) } ∧
    ∀ k, runFor k t = .next t ∧ completedCycles k t = 0

/-- For every image, over-long ones included, the state that loading it after Reset answers meets the invariant.
(Derived: 20_memory.md section 5, 40_cycle.md section 2) -/
def Obligations.LoadedStateMeetsInvariant : Prop :=
  ∀ (image : List Byte) (t : State), load image State.reset = .next t → t.Inv

/-- For every RUNNING state, whatever it holds, every run of one step or more from it and every image: Load in the state
the run leaves is refused by name. The refusal, and testing for the reset state, are the model's reading of the
spec's decision D12 (log entry 10). (Derived: 20_memory.md section 5, 92_eei_decisions.md D12,
93_implementation_defined.md I12) -/
def Obligations.LoadIsRefusedAfterTheFirstCycle : Prop :=
  ∀ (image : List Byte) (s t : State) (k : Nat), s.run = .running → runFor (k + 1) s = .next t →
    load image t = .refused .loadNotAvailable

/-- For every state and all bounds j and k: if a run of at most j cycles answers t, then a run of at most j + k cycles
from the start answers what a run of at most k cycles from t answers, and the completed cycles add up. Counting no
faulting cycle is the spec's decision D14 (log entry 17). (Derived: 10_state.md section 7, 40_cycle.md section 2) -/
def Obligations.HostStopBetweenCyclesChangesNothing : Prop :=
  ∀ (s t : State) (j k : Nat), runFor j s = .next t →
    runFor (j + k) s = runFor k t ∧ completedCycles (j + k) s = completedCycles j s + completedCycles k t

/-- For every bound and state, the model's Run and the host's repetition of the core's step answer the same. (Derived:
10_state.md section 7) -/
def Obligations.RunForIsTheCoresRun : Prop :=
  ∀ (k : Nat) (s : State), runFor k s = Host.Core.run core k s
end

