-- ==== Sys2Proof/Laws/Decode.lean ====
section
/-! SUPPORT. The fields of each opcode byte, and what the lookup answers. -/

namespace Sys2Proof

@[simp] theorem operandCount_hlt : operandCount Opcode.hlt = 0 := by decide
@[simp] theorem operandCount_ldi : operandCount Opcode.ldi = 2 := by decide
@[simp] theorem operandCount_prn : operandCount Opcode.prn = 1 := by decide
@[simp] theorem operandCount_push : operandCount Opcode.push = 1 := by decide
@[simp] theorem operandCount_pop : operandCount Opcode.pop = 1 := by decide
@[simp] theorem operandCount_jmp : operandCount Opcode.jmp = 1 := by decide
@[simp] theorem operandCount_inc : operandCount Opcode.inc = 2 := by decide
@[simp] theorem operandCount_dec : operandCount Opcode.dec = 2 := by decide
@[simp] theorem operandCount_add : operandCount Opcode.add = 2 := by decide
@[simp] theorem operandCount_sub : operandCount Opcode.sub = 2 := by decide
@[simp] theorem operandCount_mul : operandCount Opcode.mul = 2 := by decide
@[simp] theorem operandCount_div : operandCount Opcode.div = 2 := by decide
@[simp] theorem operandCount_mod : operandCount Opcode.mod = 2 := by decide
@[simp] theorem operandCount_and : operandCount Opcode.and = 2 := by decide
@[simp] theorem operandCount_or : operandCount Opcode.or = 2 := by decide
@[simp] theorem operandCount_xor : operandCount Opcode.xor = 2 := by decide
@[simp] theorem operandCount_shl : operandCount Opcode.shl = 2 := by decide
@[simp] theorem operandCount_shr : operandCount Opcode.shr = 2 := by decide

@[simp] theorem pcSetBit_hlt : pcSetBit Opcode.hlt = false := by decide
@[simp] theorem pcSetBit_ldi : pcSetBit Opcode.ldi = false := by decide
@[simp] theorem pcSetBit_prn : pcSetBit Opcode.prn = false := by decide
@[simp] theorem pcSetBit_push : pcSetBit Opcode.push = false := by decide
@[simp] theorem pcSetBit_pop : pcSetBit Opcode.pop = false := by decide
@[simp] theorem pcSetBit_jmp : pcSetBit Opcode.jmp = true := by decide
@[simp] theorem pcSetBit_inc : pcSetBit Opcode.inc = false := by decide
@[simp] theorem pcSetBit_dec : pcSetBit Opcode.dec = false := by decide
@[simp] theorem pcSetBit_add : pcSetBit Opcode.add = false := by decide
@[simp] theorem pcSetBit_sub : pcSetBit Opcode.sub = false := by decide
@[simp] theorem pcSetBit_mul : pcSetBit Opcode.mul = false := by decide
@[simp] theorem pcSetBit_div : pcSetBit Opcode.div = false := by decide
@[simp] theorem pcSetBit_mod : pcSetBit Opcode.mod = false := by decide
@[simp] theorem pcSetBit_and : pcSetBit Opcode.and = false := by decide
@[simp] theorem pcSetBit_or : pcSetBit Opcode.or = false := by decide
@[simp] theorem pcSetBit_xor : pcSetBit Opcode.xor = false := by decide
@[simp] theorem pcSetBit_shl : pcSetBit Opcode.shl = false := by decide
@[simp] theorem pcSetBit_shr : pcSetBit Opcode.shr = false := by decide

/-- The operand count is a two-bit field. -/
theorem operandCount_le (op : Byte) : operandCount op ≤ 3 := by
  have h := op.isLt
  simp only [operandCount, BitVec.toNat_ushiftRight, Nat.shiftRight_eq_div_pow]
  omega

/-- No two registered handlers share an opcode byte. -/
theorem handlers_distinct : handlers.Pairwise (fun g h => g.1 ≠ h.1) := by
  simp only [handlers, List.cons_append, List.nil_append]
  decide

/-- The lookup answers an instruction only for that instruction's own opcode byte. -/
theorem lookup_opcodeOf {op a b : Byte} {i : Instr} (h : lookup op a b = some i) : opcodeOf i = op := by
  unfold lookup at h
  cases hf : handlers.find? (fun h => h.1 == op) with
  | none => simp [hf] at h
  | some g =>
    have hg : g.1 = op := by simpa using List.find?_some hf
    have hm := List.mem_of_find?_eq_some hf
    simp only [hf, Option.map_some, Option.some.injEq] at h
    simp only [handlers, List.cons_append, List.nil_append, List.mem_cons, List.not_mem_nil, or_false] at hm
    rcases hm with rfl | rfl | rfl | rfl | rfl | rfl | rfl | rfl | rfl | rfl | rfl | rfl | rfl | rfl | rfl | rfl |
      rfl | rfl <;> (subst h; exact hg)

end Sys2Proof
end

