-- ==== Sys2Proof/Laws/Memory.lean ====
section
/-! SUPPORT. The memory list: a read after a write, and that every memory operation keeps the canonical form. -/

namespace Sys2Proof.Machine

@[simp] theorem Memory.read_nil (a : Nat) : Memory.read [] a = Memory.unlisted := rfl

theorem Memory.read_cons (c : Host.Cell) (m : Memory) (a : Nat) :
    Memory.read (c :: m) a = if a = c.1 then c.2 else Memory.read m a := by
  unfold Memory.read
  rcases c with ⟨b, v⟩
  by_cases h : a = b
  · subst h; simp
  · have : (a == b) = false := by simpa using h
    simp [List.lookup, this, h]

/-- A read at the address of no cell gives what an unlisted address reads as. -/
theorem Memory.read_of_not_listed (m : Memory) (a : Nat) (h : ∀ c ∈ m, c.1 ≠ a) :
    m.read a = Memory.unlisted := by
  induction m with
  | nil => rfl
  | cons c m ih =>
    rw [Memory.read_cons, if_neg (fun e => h c (by simp) e.symm)]
    exact ih (fun d hd => h d (by simp [hd]))

/-- Dropping the cells of one address leaves every other address alone. -/
theorem Memory.read_filter_ne (m : Memory) (a b : Nat) (h : b ≠ a) :
    Memory.read (m.filter (fun c => c.1 != a)) b = m.read b := by
  induction m with
  | nil => rfl
  | cons c m ih =>
    by_cases hc : c.1 = a
    · rw [List.filter_cons_of_neg (by simp [hc]), ih, Memory.read_cons, if_neg (by omega)]
    · rw [List.filter_cons_of_pos (by simp [hc]), Memory.read_cons, ih, Memory.read_cons]

theorem Memory.read_insertCell (c : Host.Cell) (m : Memory) (b : Nat) (h : ∀ d ∈ m, d.1 ≠ c.1) :
    Memory.read (Memory.insertCell c m) b = if b = c.1 then c.2 else m.read b := by
  induction m with
  | nil => simp [Memory.insertCell, Memory.read_cons]
  | cons d m ih =>
    have hd : d.1 ≠ c.1 := h d (by simp)
    have ih := ih (fun e he => h e (by simp [he]))
    unfold Memory.insertCell
    split
    · rw [Memory.read_cons, ih, Memory.read_cons]
      by_cases hb : b = d.1
      · subst hb; simp [hd]
      · simp [hb]
    · rw [Memory.read_cons]

theorem Memory.filter_not_listed (m : Memory) (a : Nat) : ∀ c ∈ m.filter (fun c => c.1 != a), c.1 ≠ a := by
  intro c hc
  simpa using (List.mem_filter.mp hc).2

/-- A read after a write: the written byte at its address, the old byte everywhere else. It holds of any list,
canonical or not. -/
theorem Memory.read_write (m : Memory) (a b : Nat) (v : Byte) :
    (m.write a v).read b = if b = a then v else m.read b := by
  have hl := Memory.filter_not_listed m a
  unfold Memory.write
  by_cases hb : b = a
  · subst hb
    by_cases hv : v = Memory.unlisted
    · simp [hv, Memory.read_of_not_listed _ _ hl]
    · simp [hv, Memory.read_insertCell (b, v) _ b hl]
  · by_cases hv : v = Memory.unlisted
    · simp [hv, hb, Memory.read_filter_ne m a b hb]
    · simp [hv, hb, Memory.read_insertCell (a, v) _ b hl, Memory.read_filter_ne m a b hb]

@[simp] theorem Memory.read_write_same (m : Memory) (a : Nat) (v : Byte) : (m.write a v).read a = v := by
  simp [Memory.read_write]

theorem Memory.read_write_other (m : Memory) (a b : Nat) (v : Byte) (h : b ≠ a) :
    (m.write a v).read b = m.read b := by
  simp [Memory.read_write, h]

theorem Memory.mem_insertCell (c d : Host.Cell) (m : Memory) :
    d ∈ Memory.insertCell c m ↔ d = c ∨ d ∈ m := by
  induction m with
  | nil => simp [Memory.insertCell]
  | cons e m ih =>
    unfold Memory.insertCell
    split
    · simp only [List.mem_cons, ih]; tauto
    · simp

theorem Memory.wf_nil : Memory.wf [] := ⟨List.Pairwise.nil, by simp⟩

theorem Memory.wf_filter (m : Memory) (p : Host.Cell → Bool) (h : m.wf) : Memory.wf (m.filter p) :=
  ⟨h.1.filter p, fun c hc => h.2 c (List.mem_filter.mp hc).1⟩

theorem Memory.wf_insertCell (c : Host.Cell) (m : Memory) (h : m.wf) (hc : c.1 < Config.memSize)
    (hv : c.2 ≠ Memory.unlisted) (hn : ∀ d ∈ m, d.1 ≠ c.1) : Memory.wf (Memory.insertCell c m) := by
  refine ⟨?_, fun d hd => ?_⟩
  · induction m with
    | nil => exact List.pairwise_singleton _ _
    | cons d m ih =>
      have hp := List.pairwise_cons.mp h.1
      have hd : d.1 ≠ c.1 := hn d (by simp)
      unfold Memory.insertCell
      split
      next hlt =>
        refine List.pairwise_cons.mpr ⟨fun e he => ?_, ih ⟨hp.2, fun e he => h.2 e (by simp [he])⟩
          (fun e he => hn e (by simp [he]))⟩
        rcases (Memory.mem_insertCell c e m).mp he with rfl | he
        · exact hlt
        · exact hp.1 e he
      next hge =>
        refine List.pairwise_cons.mpr ⟨fun e he => ?_, h.1⟩
        rcases List.mem_cons.mp he with rfl | he
        · omega
        · have := hp.1 e he; omega
  · rcases (Memory.mem_insertCell c d m).mp hd with rfl | hd
    · exact ⟨hc, hv⟩
    · exact h.2 d hd

/-- A write inside the address space keeps the canonical form. -/
theorem Memory.wf_write (m : Memory) (a : Nat) (v : Byte) (h : m.wf) (ha : a < Config.memSize) :
    (m.write a v).wf := by
  unfold Memory.write
  by_cases hv : v = Memory.unlisted
  · simpa [hv] using Memory.wf_filter m _ h
  · simpa [hv] using Memory.wf_insertCell (a, v) _ (Memory.wf_filter m _ h) ha hv (Memory.filter_not_listed m a)

/-- Storing bytes at rising addresses inside the address space keeps the canonical form. -/
theorem Memory.wf_writeBytes (bytes : List Byte) (m : Memory) (a : Nat) (h : m.wf)
    (ha : a + bytes.length ≤ Config.memSize) : (m.writeBytes a bytes).wf := by
  induction bytes generalizing m a with
  | nil => exact h
  | cons b bs ih =>
    simp only [List.length_cons] at ha
    exact ih _ _ (Memory.wf_write m a b h (by omega)) (by omega)

/-- What storing bytes at rising addresses leaves at each address. -/
theorem Memory.read_writeBytes (bytes : List Byte) (m : Memory) (a b : Nat) :
    (m.writeBytes a bytes).read b =
      if a ≤ b ∧ b < a + bytes.length then bytes.getD (b - a) 0 else m.read b := by
  induction bytes generalizing m a with
  | nil => simp only [Memory.writeBytes, List.length_nil]; rw [if_neg (by omega)]
  | cons v vs ih =>
    simp only [Memory.writeBytes, ih, Memory.read_write, List.length_cons]
    by_cases hb : b = a
    · subst hb; simp
    · by_cases hr : a + 1 ≤ b ∧ b < a + 1 + vs.length
      · have : b - a = (b - (a + 1)) + 1 := by omega
        simp [hr, this, show a ≤ b ∧ b < a + (vs.length + 1) from ⟨by omega, by omega⟩]
      · rw [if_neg hr, if_neg hb, if_neg (by omega)]

end Sys2Proof.Machine
end

