-- ==== Sys2Proof/Laws/State.lean ====
section
/-! SUPPORT. What each named update of the state does to each field, one lemma a field. -/

namespace Sys2Proof.Machine

@[simp] theorem raise_regs (e : FatalError) (s : State) : (raise e s).regs = s.regs := rfl
@[simp] theorem raise_pc (e : FatalError) (s : State) : (raise e s).pc = s.pc := rfl
@[simp] theorem raise_mem (e : FatalError) (s : State) : (raise e s).mem = s.mem := rfl
@[simp] theorem raise_run (e : FatalError) (s : State) : (raise e s).run = .faulted e := rfl
@[simp] theorem raise_out (e : FatalError) (s : State) : (raise e s).out = s.out := rfl

@[simp] theorem halt_regs (s : State) : (halt s).regs = s.regs := rfl
@[simp] theorem halt_pc (s : State) : (halt s).pc = s.pc := rfl
@[simp] theorem halt_mem (s : State) : (halt s).mem = s.mem := rfl
@[simp] theorem halt_run (s : State) : (halt s).run = .halted := rfl
@[simp] theorem halt_out (s : State) : (halt s).out = s.out := rfl

@[simp] theorem emit_regs (s : State) (v : Byte) : (emit s v).regs = s.regs := rfl
@[simp] theorem emit_pc (s : State) (v : Byte) : (emit s v).pc = s.pc := rfl
@[simp] theorem emit_mem (s : State) (v : Byte) : (emit s v).mem = s.mem := rfl
@[simp] theorem emit_run (s : State) (v : Byte) : (emit s v).run = s.run := rfl
@[simp] theorem emit_out (s : State) (v : Byte) : (emit s v).out = s.out ++ [v] := rfl

@[simp] theorem setPc_regs (s : State) (t : Byte) : (setPc s t).regs = s.regs := rfl
@[simp] theorem setPc_pc (s : State) (t : Byte) : (setPc s t).pc = t.toNat := rfl
@[simp] theorem setPc_mem (s : State) (t : Byte) : (setPc s t).mem = s.mem := rfl
@[simp] theorem setPc_run (s : State) (t : Byte) : (setPc s t).run = s.run := rfl
@[simp] theorem setPc_out (s : State) (t : Byte) : (setPc s t).out = s.out := rfl

@[simp] theorem updatePc_pc (op : Byte) (s : State) :
    (updatePc op s).pc = if pcSetBit op then s.pc else s.pc + operandCount op + 1 := by
  unfold updatePc; split <;> rfl
@[simp] theorem updatePc_regs (op : Byte) (s : State) : (updatePc op s).regs = s.regs := by
  unfold updatePc; split <;> rfl
@[simp] theorem updatePc_mem (op : Byte) (s : State) : (updatePc op s).mem = s.mem := by
  unfold updatePc; split <;> rfl
@[simp] theorem updatePc_run (op : Byte) (s : State) : (updatePc op s).run = s.run := by
  unfold updatePc; split <;> rfl
@[simp] theorem updatePc_out (op : Byte) (s : State) : (updatePc op s).out = s.out := by
  unfold updatePc; split <;> rfl

@[simp] theorem placeAtFetch_regs (s : State) (bytes : List Byte) : (placeAtFetch s bytes).regs = s.regs := rfl
@[simp] theorem placeAtFetch_pc (s : State) (bytes : List Byte) : (placeAtFetch s bytes).pc = placeAddress s := rfl
@[simp] theorem placeAtFetch_mem (s : State) (bytes : List Byte) :
    (placeAtFetch s bytes).mem = s.mem.writeBytes (placeAddress s) bytes := rfl
@[simp] theorem placeAtFetch_run (s : State) (bytes : List Byte) : (placeAtFetch s bytes).run = .running := rfl
@[simp] theorem placeAtFetch_out (s : State) (bytes : List Byte) : (placeAtFetch s bytes).out = s.out := rfl

end Sys2Proof.Machine
end

