-- ==== Sys2Proof/Laws/Ops.lean ====
section
/-! SUPPORT. For each shared operation, everything it can do, said once. -/

namespace Sys2Proof.Machine

/-! ### Registers -/

theorem readReg_valid (s : State) (i : Byte) (h : i.toNat < 8) : readReg s i = .ok s.regs[i.toNat] := by
  simp [readReg, h]

theorem readReg_invalid (s : State) (i : Byte) (h : ¬ i.toNat < 8) :
    readReg s i = .error (.invalidRegister i) := by
  simp [readReg, h]

theorem writeReg_valid (s : State) (i v : Byte) (h : i.toNat < 8) :
    writeReg s i v = .ok { s with regs := s.regs.set i.toNat v } := by
  simp [writeReg, h]

theorem writeReg_invalid (s : State) (i v : Byte) (h : ¬ i.toNat < 8) :
    writeReg s i v = .error (.invalidRegister i) := by
  simp [writeReg, h]

/-- What a register read can answer. -/
theorem readReg_cases (s : State) (i : Byte) :
    (∃ h : i.toNat < 8, readReg s i = .ok s.regs[i.toNat]) ∨
    (¬ i.toNat < 8 ∧ readReg s i = .error (.invalidRegister i)) := by
  by_cases h : i.toNat < 8
  · exact .inl ⟨h, readReg_valid s i h⟩
  · exact .inr ⟨h, readReg_invalid s i h⟩

/-- What a register write can answer. -/
theorem writeReg_cases (s : State) (i v : Byte) :
    (∃ h : i.toNat < 8, writeReg s i v = .ok { s with regs := s.regs.set i.toNat v }) ∨
    (¬ i.toNat < 8 ∧ writeReg s i v = .error (.invalidRegister i)) := by
  by_cases h : i.toNat < 8
  · exact .inl ⟨h, writeReg_valid s i v h⟩
  · exact .inr ⟨h, writeReg_invalid s i v h⟩

theorem checkReg_valid (s : State) (i : Byte) (h : i.toNat < 8) : checkReg s i = .ok () := by
  simp [checkReg, readReg_valid s i h, bind, Except.bind, pure, Except.pure]

theorem checkReg_invalid (s : State) (i : Byte) (h : ¬ i.toNat < 8) :
    checkReg s i = .error (.invalidRegister i) := by
  simp [checkReg, readReg_invalid s i h, bind, Except.bind]

/-! ### Memory -/

theorem memRead_valid (s : State) (a : Nat) (h : a < 256) : memRead s a = .ok (s.mem.read a) := by
  simp [memRead, h]

theorem memRead_invalid (s : State) (a : Nat) (h : ¬ a < 256) : memRead s a = .error (.invalidAddress a) := by
  simp [memRead, h]

theorem memRead_eq_ok (s : State) (a : Nat) (v : Byte) (h : memRead s a = .ok v) : a < 256 ∧ s.mem.read a = v := by
  by_cases ha : a < 256
  · rw [memRead_valid s a ha] at h; cases h; exact ⟨ha, rfl⟩
  · rw [memRead_invalid s a ha] at h; cases h

theorem memWrite_valid (s : State) (a : Nat) (v : Byte) (h : a < 256) :
    memWrite s a v = .ok { s with mem := s.mem.write a v } := by
  simp [memWrite, h]

theorem memWrite_invalid (s : State) (a : Nat) (v : Byte) (h : ¬ a < 256) :
    memWrite s a v = .error (.invalidAddress a) := by
  simp [memWrite, h]

/-- A memory write that succeeds keeps the canonical form. -/
theorem memWrite_wf (s t : State) (a : Nat) (v : Byte) (hs : s.mem.wf) (h : memWrite s a v = .ok t) :
    t.mem.wf := by
  by_cases ha : a < 256
  · rw [memWrite_valid s a v ha] at h
    cases h
    exact Memory.wf_write s.mem a v hs ha
  · rw [memWrite_invalid s a v ha] at h
    cases h

theorem reset_mem_wf : State.reset.mem.wf := Memory.wf_nil

/-! ### Masking and the ALU -/

theorem mask8_natCast (n : Nat) : mask8 (n : Int) = BitVec.ofNat 8 n := by
  apply BitVec.eq_of_toNat_eq
  simp only [mask8, BitVec.toNat_ofNat]
  omega

theorem mask8_toNat (v : Int) : ((mask8 v).toNat : Int) = v % 256 := by
  simp only [mask8, BitVec.toNat_ofNat]
  omega

/-- The ALU raises only DivisionByZero, exactly for a dividing operation with divisor 0. -/
theorem alu_cases (op : AluOp) (A B : Byte) :
    (divides op = true ∧ B = 0 ∧ alu op A B = .error .divisionByZero) ∨
    (¬ (divides op = true ∧ B = 0) ∧ alu op A B = .ok (mask8 (exactResult op A.toNat B.toNat))) := by
  by_cases h : divides op = true ∧ B = 0
  · exact .inl ⟨h.1, h.2, by simp [alu, h.1, h.2]⟩
  · exact .inr ⟨h, by simp only [alu]; rw [if_neg (by simpa using h)]⟩

theorem alu_of_not_divides (op : AluOp) (A B : Byte) (h : divides op = false) :
    alu op A B = .ok (mask8 (exactResult op A.toNat B.toNat)) := by
  simp [alu, h]

/-- Everything the common form of the ALU instructions can do: an index check fails, the divisor is 0, or the masked
result is written to the first register. -/
theorem aluHandler_cases (op : AluOp) (ra rb : Byte) (s : State) :
    (¬ ra.toNat < 8 ∧ aluHandler op ra rb s = .error (.invalidRegister ra)) ∨
    (ra.toNat < 8 ∧ ¬ rb.toNat < 8 ∧ aluHandler op ra rb s = .error (.invalidRegister rb)) ∨
    (∃ (_ : ra.toNat < 8) (_ : rb.toNat < 8), divides op = true ∧ s.regs[rb.toNat] = 0 ∧
      aluHandler op ra rb s = .error .divisionByZero) ∨
    (∃ (_ : ra.toNat < 8) (_ : rb.toNat < 8), ¬ (divides op = true ∧ s.regs[rb.toNat] = 0) ∧
      aluHandler op ra rb s = .ok
        { s with
          regs := s.regs.set ra.toNat (mask8 (exactResult op s.regs[ra.toNat].toNat s.regs[rb.toNat].toNat)) }) := by
  unfold aluHandler
  by_cases ha : ra.toNat < 8
  · by_cases hb : rb.toNat < 8
    · rw [readReg_valid s ra ha, readReg_valid s rb hb]
      rcases alu_cases op s.regs[ra.toNat] s.regs[rb.toNat] with ⟨h₁, h₂, h⟩ | ⟨h₁, h⟩
      · exact .inr (.inr (.inl ⟨ha, hb, h₁, h₂, by simp only [bind, Except.bind, h]⟩))
      · exact .inr (.inr (.inr ⟨ha, hb, h₁, by simp only [bind, Except.bind, h, writeReg_valid s ra _ ha]⟩))
    · refine .inr (.inl ⟨ha, hb, ?_⟩)
      simp only [readReg_valid s ra ha, readReg_invalid s rb hb, bind, Except.bind]
  · refine .inl ⟨ha, ?_⟩
    simp only [readReg_invalid s ra ha, bind, Except.bind]

/-- SP is always a valid index. -/
theorem writeReg_sp (s : State) (v : Byte) :
    writeReg s Config.spIndex v = .ok { s with regs := s.regs.set 7 v } := by
  rw [writeReg_valid s Config.spIndex v (by decide)]; rfl

/-- The DEC that PUSH asks for. -/
theorem alu_dec (A B : Byte) : alu .dec A B = .ok (A - 1) := by
  rw [alu_of_not_divides _ _ _ rfl]
  congr 1
  apply BitVec.eq_of_toNat_eq
  have := mask8_toNat (exactResult .dec A.toNat B.toNat)
  simp only [exactResult] at *
  have h := A.isLt
  bv_omega

/-- The INC that POP asks for. -/
theorem alu_inc (A B : Byte) : alu .inc A B = .ok (A + 1) := by
  rw [alu_of_not_divides _ _ _ rfl]
  congr 1
  apply BitVec.eq_of_toNat_eq
  have := mask8_toNat (exactResult .inc A.toNat B.toNat)
  simp only [exactResult] at *
  have h := A.isLt
  bv_omega

/-! ### The end of a cycle -/

@[simp] theorem finishCycle_error (op : Byte) (s : State) (e : FatalError) :
    finishCycle op s (.error e) = .next (raise e s) := rfl

@[simp] theorem finishCycle_ok (op : Byte) (s t : State) : finishCycle op s (.ok t) = .next (updatePc op t) := rfl

/-- With bit 4 of the opcode clear, a handler's writes are committed and pc moves past the instruction. -/
theorem finishCycle_advance (op : Byte) (s t : State) (h : pcSetBit op = false) :
    finishCycle op s (.ok t) = .next { t with pc := t.pc + operandCount op + 1 } := by
  simp [updatePc, h]

/-- A cycle always ends in a next state: the fault entered on the state before it, or the handler's writes with the
pc update. -/
theorem finishCycle_cases (op : Byte) (s t : State) (staged : Except FatalError State)
    (h : finishCycle op s staged = .next t) :
    (∃ e, staged = .error e ∧ t = raise e s) ∨ (∃ u, staged = .ok u ∧ t = updatePc op u) := by
  cases staged with
  | error e => exact .inl ⟨e, rfl, by simpa using h.symm⟩
  | ok u => exact .inr ⟨u, rfl, by simpa using h.symm⟩

/-! ### Fetch -/

theorem fetchOperand_absent (s : State) (n k : Nat) (h : n < k) : fetchOperand s n k = .ok 0 := by
  simp [fetchOperand, show ¬ k ≤ n by omega]

theorem fetchOperand_present (s : State) (n k : Nat) (h : k ≤ n) : fetchOperand s n k = memRead s (s.pc + k) := by
  simp [fetchOperand, h]

theorem fetchOperand_inside (s : State) (n k : Nat) (h : s.pc + n < 256) :
    fetchOperand s n k = .ok (if k ≤ n then s.mem.read (s.pc + k) else 0) := by
  by_cases hk : k ≤ n
  · simp [fetchOperand_present s n k hk, memRead_valid s (s.pc + k) (by omega), hk]
  · simp [fetchOperand_absent s n k (by omega), hk]

/-- The opcode fetch is out of range. -/
theorem fetch_outside (s : State) (h : ¬ s.pc < 256) : fetch s = .error (.invalidAddress s.pc) := by
  simp [fetch, memRead_invalid s s.pc h, bind, Except.bind]

/-- Every byte of the instruction is in range: the fetch gives the opcode and the latch. -/
theorem fetch_inside (s : State) (h : s.pc + operandCount (s.mem.read s.pc) < 256) :
    fetch s = .ok
      { op := s.mem.read s.pc
        a := if 1 ≤ operandCount (s.mem.read s.pc) then s.mem.read (s.pc + 1) else 0
        b := if 2 ≤ operandCount (s.mem.read s.pc) then s.mem.read (s.pc + 2) else 0 } := by
  simp [fetch, memRead_valid s s.pc (by omega), fetchOperand_inside s _ _ h, bind, Except.bind, pure,
    Except.pure]

/-- The opcode is in range and an operand byte is not: the first address past memory, 256, is the one reported. -/
theorem fetch_straddles (s : State) (h₀ : s.pc < 256) (h : ¬ s.pc + operandCount (s.mem.read s.pc) < 256) :
    fetch s = .error (.invalidAddress 256) := by
  have hn := operandCount_le (s.mem.read s.pc)
  have step (k : Nat) (hk : k ≤ operandCount (s.mem.read s.pc)) :
      fetchOperand s (operandCount (s.mem.read s.pc)) k =
        if s.pc + k < 256 then .ok (s.mem.read (s.pc + k)) else .error (.invalidAddress (s.pc + k)) := by
    rw [fetchOperand_present s _ k hk]; rfl
  simp only [fetch, memRead_valid s s.pc h₀, bind, Except.bind]
  rw [step 1 (by omega)]
  by_cases h₁ : s.pc + 1 < 256
  · rw [if_pos h₁]
    simp only []
    rw [step 2 (by omega)]
    by_cases h₂ : s.pc + 2 < 256
    · rw [if_pos h₂]
      simp only []
      rw [step 3 (by omega), if_neg (by omega)]
      simp only [Except.error.injEq, FatalError.invalidAddress.injEq]
      omega
    · rw [if_neg h₂]
      simp only [Except.error.injEq, FatalError.invalidAddress.injEq]
      omega
  · rw [if_neg h₁]
    simp only [Except.error.injEq, FatalError.invalidAddress.injEq]
    omega

end Sys2Proof.Machine
end

