-- ==== Sys2Proof/Laws/PerInstr.lean ====
section
/-! SUPPORT. Per-instruction facts of the encoding: the family `Encoding`. -/

/-- The encoding of an instruction begins with its opcode byte, and as many operand bytes follow as bits 7:6 of that
byte say (spec/30_encoding.md R70, R72). -/
def Sys2Proof.Laws.Encoding.Statement (i : Sys2Proof.Instr) : Prop :=
  (Sys2Proof.encode i).head? = some (Sys2Proof.opcodeOf i) ∧
    (Sys2Proof.encode i).length = Sys2Proof.operandCount (Sys2Proof.opcodeOf i) + 1

theorem Sys2Proof.Laws.Encoding.hlt : Sys2Proof.Laws.Encoding.Statement .hlt := ⟨rfl, by simp [Sys2Proof.encode, Sys2Proof.opcodeOf]⟩
theorem Sys2Proof.Laws.Encoding.ldi (ra imm : Sys2Proof.Byte) : Sys2Proof.Laws.Encoding.Statement (.ldi ra imm) := ⟨rfl, by simp [Sys2Proof.encode, Sys2Proof.opcodeOf]⟩
theorem Sys2Proof.Laws.Encoding.prn (ra : Sys2Proof.Byte) : Sys2Proof.Laws.Encoding.Statement (.prn ra) := ⟨rfl, by simp [Sys2Proof.encode, Sys2Proof.opcodeOf]⟩
theorem Sys2Proof.Laws.Encoding.push (ra : Sys2Proof.Byte) : Sys2Proof.Laws.Encoding.Statement (.push ra) := ⟨rfl, by simp [Sys2Proof.encode, Sys2Proof.opcodeOf]⟩
theorem Sys2Proof.Laws.Encoding.pop (ra : Sys2Proof.Byte) : Sys2Proof.Laws.Encoding.Statement (.pop ra) := ⟨rfl, by simp [Sys2Proof.encode, Sys2Proof.opcodeOf]⟩
theorem Sys2Proof.Laws.Encoding.jmp (ra : Sys2Proof.Byte) : Sys2Proof.Laws.Encoding.Statement (.jmp ra) := ⟨rfl, by simp [Sys2Proof.encode, Sys2Proof.opcodeOf]⟩
theorem Sys2Proof.Laws.Encoding.inc (ra rb : Sys2Proof.Byte) : Sys2Proof.Laws.Encoding.Statement (.inc ra rb) := ⟨rfl, by simp [Sys2Proof.encode, Sys2Proof.opcodeOf]⟩
theorem Sys2Proof.Laws.Encoding.dec (ra rb : Sys2Proof.Byte) : Sys2Proof.Laws.Encoding.Statement (.dec ra rb) := ⟨rfl, by simp [Sys2Proof.encode, Sys2Proof.opcodeOf]⟩
theorem Sys2Proof.Laws.Encoding.add (ra rb : Sys2Proof.Byte) : Sys2Proof.Laws.Encoding.Statement (.add ra rb) := ⟨rfl, by simp [Sys2Proof.encode, Sys2Proof.opcodeOf]⟩
theorem Sys2Proof.Laws.Encoding.sub (ra rb : Sys2Proof.Byte) : Sys2Proof.Laws.Encoding.Statement (.sub ra rb) := ⟨rfl, by simp [Sys2Proof.encode, Sys2Proof.opcodeOf]⟩
theorem Sys2Proof.Laws.Encoding.mul (ra rb : Sys2Proof.Byte) : Sys2Proof.Laws.Encoding.Statement (.mul ra rb) := ⟨rfl, by simp [Sys2Proof.encode, Sys2Proof.opcodeOf]⟩
theorem Sys2Proof.Laws.Encoding.div (ra rb : Sys2Proof.Byte) : Sys2Proof.Laws.Encoding.Statement (.div ra rb) := ⟨rfl, by simp [Sys2Proof.encode, Sys2Proof.opcodeOf]⟩
theorem Sys2Proof.Laws.Encoding.mod (ra rb : Sys2Proof.Byte) : Sys2Proof.Laws.Encoding.Statement (.mod ra rb) := ⟨rfl, by simp [Sys2Proof.encode, Sys2Proof.opcodeOf]⟩
theorem Sys2Proof.Laws.Encoding.and (ra rb : Sys2Proof.Byte) : Sys2Proof.Laws.Encoding.Statement (.and ra rb) := ⟨rfl, by simp [Sys2Proof.encode, Sys2Proof.opcodeOf]⟩
theorem Sys2Proof.Laws.Encoding.or (ra rb : Sys2Proof.Byte) : Sys2Proof.Laws.Encoding.Statement (.or ra rb) := ⟨rfl, by simp [Sys2Proof.encode, Sys2Proof.opcodeOf]⟩
theorem Sys2Proof.Laws.Encoding.xor (ra rb : Sys2Proof.Byte) : Sys2Proof.Laws.Encoding.Statement (.xor ra rb) := ⟨rfl, by simp [Sys2Proof.encode, Sys2Proof.opcodeOf]⟩
theorem Sys2Proof.Laws.Encoding.shl (ra rb : Sys2Proof.Byte) : Sys2Proof.Laws.Encoding.Statement (.shl ra rb) := ⟨rfl, by simp [Sys2Proof.encode, Sys2Proof.opcodeOf]⟩
theorem Sys2Proof.Laws.Encoding.shr (ra rb : Sys2Proof.Byte) : Sys2Proof.Laws.Encoding.Statement (.shr ra rb) := ⟨rfl, by simp [Sys2Proof.encode, Sys2Proof.opcodeOf]⟩
end

