-- ==== Sys2Proof/Laws/Step.lean ====
section
/-! SUPPORT. Everything a step can do, said once: the cases of a step, and the cases of exec in terms of the shared
operations. Proofs about a step start from these and unfold nothing. -/

namespace Sys2Proof.Machine

/-- A step of a machine that is not RUNNING. -/
theorem step_of_not_running (s : State) (h : s.run ≠ .running) : step s = .next s := by
  unfold step stepOrStay
  cases hr : s.run with
  | running => exact absurd hr h
  | halted => rfl
  | faulted e => rfl

/-- A step of a RUNNING machine is one cycle. -/
theorem step_of_running (s : State) (h : s.run = .running) : step s = runCycle s := by
  simp [step, stepOrStay, h]

/-- A cycle whose fetch fails. -/
theorem runCycle_fetch_error (s : State) (e : FatalError) (h : fetch s = .error e) :
    runCycle s = .next (raise e s) := by
  simp [runCycle, h]

/-- A cycle whose opcode has no handler. -/
theorem runCycle_unsupported (s : State) (f : Fetched) (h : fetch s = .ok f) (hl : lookup f.op f.a f.b = none) :
    runCycle s = .next (raise (.unsupportedOpcode f.op) s) := by
  simp [runCycle, h, hl]

/-- A cycle whose opcode has a handler. -/
theorem runCycle_exec (s : State) (f : Fetched) (i : Instr) (h : fetch s = .ok f)
    (hl : lookup f.op f.a f.b = some i) : runCycle s = exec i s := by
  simp [runCycle, h, hl]

/-- Everything the fetch can do, in the order of its checks. -/
theorem fetch_cases (s : State) :
    (256 ≤ s.pc ∧ fetch s = .error (.invalidAddress s.pc)) ∨
    (s.pc < 256 ∧ 256 ≤ s.pc + operandCount (s.mem.read s.pc) ∧ fetch s = .error (.invalidAddress 256)) ∨
    (s.pc + operandCount (s.mem.read s.pc) < 256 ∧ fetch s = .ok
      { op := s.mem.read s.pc
        a := if 1 ≤ operandCount (s.mem.read s.pc) then s.mem.read (s.pc + 1) else 0
        b := if 2 ≤ operandCount (s.mem.read s.pc) then s.mem.read (s.pc + 2) else 0 }) := by
  by_cases h₀ : s.pc < 256
  · by_cases h : s.pc + operandCount (s.mem.read s.pc) < 256
    · exact .inr (.inr ⟨h, fetch_inside s h⟩)
    · exact .inr (.inl ⟨h₀, by omega, fetch_straddles s h₀ h⟩)
  · exact .inl ⟨by omega, fetch_outside s h₀⟩

/-- Everything a step can do: stay in a terminal state, enter a fault of the fetch or of the lookup, or run exec of the
instruction whose opcode byte stands at pc and whose operand bytes follow it inside memory. -/
theorem step_cases (s : State) :
    (s.run ≠ .running ∧ step s = .next s) ∨
    (s.run = .running ∧ ∃ e, step s = .next (raise e s) ∧
      (e = .invalidAddress s.pc ∨ e = .invalidAddress 256 ∨ e = .unsupportedOpcode (s.mem.read s.pc))) ∨
    (s.run = .running ∧ s.pc + operandCount (s.mem.read s.pc) < 256 ∧ ∃ i, step s = exec i s ∧
      opcodeOf i = s.mem.read s.pc ∧ lookup (s.mem.read s.pc)
        (if 1 ≤ operandCount (s.mem.read s.pc) then s.mem.read (s.pc + 1) else 0)
        (if 2 ≤ operandCount (s.mem.read s.pc) then s.mem.read (s.pc + 2) else 0) = some i) := by
  by_cases hr : s.run = .running
  · rw [step_of_running s hr]
    rcases fetch_cases s with ⟨_, h⟩ | ⟨_, _, h⟩ | ⟨hin, h⟩
    · exact .inr (.inl ⟨hr, _, runCycle_fetch_error s _ h, .inl rfl⟩)
    · exact .inr (.inl ⟨hr, _, runCycle_fetch_error s _ h, .inr (.inl rfl)⟩)
    · cases hl : lookup (s.mem.read s.pc)
          (if 1 ≤ operandCount (s.mem.read s.pc) then s.mem.read (s.pc + 1) else 0)
          (if 2 ≤ operandCount (s.mem.read s.pc) then s.mem.read (s.pc + 2) else 0) with
      | none => exact .inr (.inl ⟨hr, _, runCycle_unsupported s _ h hl, .inr (.inr rfl)⟩)
      | some i => exact .inr (.inr ⟨hr, hin, i, runCycle_exec s _ i h hl, lookup_opcodeOf hl, rfl⟩)
  · exact .inl ⟨hr, step_of_not_running s hr⟩

/-- The handler of an instruction: what its own checks raise, or the state with its writes, before the pc update. -/
def handlerOf (i : Instr) (s : State) : Except FatalError State :=
  match i with
  | .hlt => hltHandler s
  | .ldi ra imm => ldiHandler ra imm s
  | .prn ra => prnHandler ra s
  | .push ra => pushHandler ra s
  | .pop ra => popHandler ra s
  | .jmp ra => jmpHandler ra s
  | .inc ra rb => aluHandler .inc ra rb s
  | .dec ra rb => aluHandler .dec ra rb s
  | .add ra rb => aluHandler .add ra rb s
  | .sub ra rb => aluHandler .sub ra rb s
  | .mul ra rb => aluHandler .mul ra rb s
  | .div ra rb => aluHandler .div ra rb s
  | .mod ra rb => aluHandler .mod ra rb s
  | .and ra rb => aluHandler .and ra rb s
  | .or ra rb => aluHandler .or ra rb s
  | .xor ra rb => aluHandler .xor ra rb s
  | .shl ra rb => aluHandler .shl ra rb s
  | .shr ra rb => aluHandler .shr ra rb s

/-- Every instruction's cycle ends the same way: its handler's answer, finished with its own opcode byte. -/
theorem exec_eq_finishCycle (i : Instr) (s : State) : exec i s = finishCycle (opcodeOf i) s (handlerOf i s) := by
  cases i <;> rfl

/-! ### The handlers outside the ALU -/

theorem hltHandler_eq (s : State) : hltHandler s = .ok (halt s) := rfl

theorem ldiHandler_valid (ra imm : Byte) (s : State) (h : ra.toNat < 8) :
    ldiHandler ra imm s = .ok { s with regs := s.regs.set ra.toNat imm } := writeReg_valid s ra imm h

theorem ldiHandler_invalid (ra imm : Byte) (s : State) (h : ¬ ra.toNat < 8) :
    ldiHandler ra imm s = .error (.invalidRegister ra) := writeReg_invalid s ra imm h

theorem prnHandler_valid (ra : Byte) (s : State) (h : ra.toNat < 8) :
    prnHandler ra s = .ok (emit s s.regs[ra.toNat]) := by
  simp [prnHandler, readReg_valid s ra h, bind, Except.bind, pure, Except.pure]

theorem prnHandler_invalid (ra : Byte) (s : State) (h : ¬ ra.toNat < 8) :
    prnHandler ra s = .error (.invalidRegister ra) := by
  simp [prnHandler, readReg_invalid s ra h, bind, Except.bind]

theorem jmpHandler_valid (ra : Byte) (s : State) (h : ra.toNat < 8) :
    jmpHandler ra s = .ok (setPc s s.regs[ra.toNat]) := by
  simp [jmpHandler, readReg_valid s ra h, bind, Except.bind, pure, Except.pure]

theorem jmpHandler_invalid (ra : Byte) (s : State) (h : ¬ ra.toNat < 8) :
    jmpHandler ra s = .error (.invalidRegister ra) := by
  simp [jmpHandler, readReg_invalid s ra h, bind, Except.bind]

theorem pushHandler_invalid (ra : Byte) (s : State) (h : ¬ ra.toNat < 8) :
    pushHandler ra s = .error (.invalidRegister ra) := by
  simp only [pushHandler, checkReg_invalid s ra h, bind, Except.bind]

theorem popHandler_invalid (ra : Byte) (s : State) (h : ¬ ra.toNat < 8) :
    popHandler ra s = .error (.invalidRegister ra) := by
  simp only [popHandler, checkReg_invalid s ra h, bind, Except.bind]

/-- PUSH's writes: SP one lower, and one byte stored at the new SP. -/
theorem pushHandler_valid (ra : Byte) (s : State) (h : ra.toNat < 8) :
    pushHandler ra s = .ok
      { s with
        regs := s.regs.set 7 (s.regs[7] - 1)
        mem := s.mem.write (s.regs[7] - 1).toNat (if ra = 7 then s.regs[7] - 1 else s.regs[ra.toNat]) } := by
  simp only [pushHandler, checkReg_valid s ra h, alu_dec, writeReg_sp, bind, Except.bind, State.sp]
  rw [readReg_valid _ _ h]
  simp only []
  rw [memWrite_valid _ _ _ (by simpa using (s.regs[7] - 1).isLt)]
  simp only [Vector.getElem_set, Except.ok.injEq]
  by_cases h7 : ra = 7
  · subst h7; simp
  · have : 7 ≠ ra.toNat := fun e => h7 (by apply BitVec.eq_of_toNat_eq; simpa using e.symm)
    rw [if_neg h7]; simp [this]

/-- POP's writes: the destination takes the byte at SP, then SP is one higher; for `POP R7` the byte plus 1. -/
theorem popHandler_valid (ra : Byte) (s : State) (h : ra.toNat < 8) :
    popHandler ra s = .ok
      { s with
        regs :=
          if ra = 7 then s.regs.set 7 (s.mem.read s.regs[7].toNat + 1)
          else (s.regs.set ra.toNat (s.mem.read s.regs[7].toNat)).set 7 (s.regs[7] + 1) } := by
  simp only [popHandler, checkReg_valid s ra h, alu_inc, writeReg_sp, bind, Except.bind, State.sp]
  rw [memRead_valid _ _ (s.regs[7]).isLt]
  simp only [writeReg_valid s ra _ h, Except.ok.injEq, Vector.getElem_set]
  by_cases h7 : ra = 7
  · subst h7; simp
  · have : ¬ ra.toNat = 7 := fun e => h7 (by apply BitVec.eq_of_toNat_eq; simpa using e)
    rw [if_neg h7]; simp [this]

/-! ### Loading -/

/-- An image that fits is stored byte by byte, and nothing else changes. -/
theorem loadBytes_fits (image : List Byte) (a : Nat) (s : State) (h : a + image.length ≤ 256) :
    loadBytes image a s = { s with mem := s.mem.writeBytes a image } := by
  induction image generalizing a s with
  | nil => rfl
  | cons b bs ih =>
    simp only [List.length_cons] at h
    simp only [loadBytes, memWrite_valid s a b (by omega)]
    rw [ih _ _ (by omega)]; rfl

/-- An image that does not fit is stored up to address 255, and the write at 256 enters its fault. -/
theorem loadBytes_overflows (image : List Byte) (a : Nat) (s : State) (ha : a ≤ 256) (h : 256 < a + image.length) :
    loadBytes image a s =
      { s with mem := s.mem.writeBytes a (image.take (256 - a)), run := .faulted (.invalidAddress 256) } := by
  induction image generalizing a s with
  | nil => simp at h; omega
  | cons b bs ih =>
    simp only [List.length_cons] at h
    by_cases h256 : a = 256
    · subst h256; simp [loadBytes, memWrite_invalid, raise, Memory.writeBytes]
    · simp only [loadBytes, memWrite_valid s a b (by omega)]
      rw [ih _ _ (by omega) (by omega), show 256 - a = (256 - (a + 1)) + 1 by omega]
      simp [Memory.writeBytes]

end Sys2Proof.Machine
end

