-- ==== Sys2Proof/Machine/Assembler.lean ====
section
/-! DEFINITION. The assembler syntax in which the spec writes instructions (spec/30_encoding.md R84, R85; log entry 19):
one line of characters to one instruction. It has no effect on the block. -/

namespace Sys2Proof.Asm

/-- A written operand: a register `R0`..`R7`, or an immediate 0..255. -/
inductive Operand where
  | reg (i : Byte)
  | imm (v : Byte)
  deriving DecidableEq, Repr

/-- The value of a digit character, in any base up to 16. -/
def digitValue (c : Char) : Option Nat :=
  (['0', '1', '2', '3', '4', '5', '6', '7', '8', '9', 'a', 'b', 'c', 'd', 'e', 'f'].findIdx? (· == c)).orElse
    fun _ => (['A', 'B', 'C', 'D', 'E', 'F'].findIdx? (· == c)).map (· + 10)

/-- The number a list of digits writes in a base, carried on from `acc`. -/
def digitsFrom (base : Nat) : Nat → List Char → Option Nat
  | acc, [] => some acc
  | acc, c :: cs =>
    match digitValue c with
    | none => none
    | some d => if d < base then digitsFrom base (acc * base + d) cs else none

/-- A number: `0x` hexadecimal, `0b` binary, else decimal (R84); at least one digit. -/
def number : List Char → Option Nat
  | [] => none
  | '0' :: 'x' :: c :: cs => digitsFrom 16 0 (c :: cs)
  | '0' :: 'b' :: c :: cs => digitsFrom 2 0 (c :: cs)
  | cs => digitsFrom 10 0 cs

/-- One operand: `R` and one digit 0..7, or a number 0..255 (R84). -/
def operand (cs : List Char) : Option Operand :=
  match cs with
  | ['R', d] =>
    match digitValue d with
    | some i => if i < Config.numRegs then some (.reg (BitVec.ofNat 8 i)) else none
    | none => none
  | _ =>
    match number cs with
    | some v => if v < 256 then some (.imm (BitVec.ofNat 8 v)) else none
    | none => none

/-- Cut a line at its commas. -/
def splitCommas : List Char → List (List Char)
  | [] => [[]]
  | ',' :: cs => [] :: splitCommas cs
  | c :: cs =>
    match splitCommas cs with
    | [] => [[c]]
    | w :: ws => (c :: w) :: ws

/-- Drop the spaces at both ends. -/
def trim (cs : List Char) : List Char :=
  ((cs.dropWhile (· == ' ')).reverse.dropWhile (· == ' ')).reverse

/-- A line's mnemonic and its operands, separated by commas (R84). -/
def parts (line : List Char) : List Char × Option (List Operand) :=
  let l := trim line
  let rest := trim (l.dropWhile (· != ' '))
  (l.takeWhile (· != ' '), if rest.isEmpty then some [] else (splitCommas rest).mapM (fun w => operand (trim w)))

/-- The two-register ALU instruction a mnemonic names, with its two operand bytes. -/
def aluMnemonic (m : List Char) : Option (Byte → Byte → Instr) :=
  match m with
  | ['I', 'N', 'C'] => some .inc
  | ['D', 'E', 'C'] => some .dec
  | ['A', 'D', 'D'] => some .add
  | ['S', 'U', 'B'] => some .sub
  | ['M', 'U', 'L'] => some .mul
  | ['D', 'I', 'V'] => some .div
  | ['M', 'O', 'D'] => some .mod
  | ['A', 'N', 'D'] => some .and
  | ['O', 'R'] => some .or
  | ['X', 'O', 'R'] => some .xor
  | ['S', 'H', 'L'] => some .shl
  | ['S', 'H', 'R'] => some .shr
  | _ => none

/-- The one-operand pseudo-instructions: `INC Ra` and `DEC Ra` assemble with operand_b 0 (R85). -/
def pseudo (m : List Char) (ra : Byte) : Option Instr :=
  match m with
  | ['I', 'N', 'C'] => some (.inc ra 0)
  | ['D', 'E', 'C'] => some (.dec ra 0)
  | _ => none

/-- The instruction a mnemonic and its operands write (R84, R85). -/
def build (m : List Char) (ops : List Operand) : Option Instr :=
  match ops with
  | [] => if m == ['H', 'L', 'T'] then some .hlt else none
  | [.reg ra] =>
    match m with
    | ['P', 'R', 'N'] => some (.prn ra)
    | ['P', 'U', 'S', 'H'] => some (.push ra)
    | ['P', 'O', 'P'] => some (.pop ra)
    | ['J', 'M', 'P'] => some (.jmp ra)
    | _ => pseudo m ra
  | [.reg ra, .imm v] => if m == ['L', 'D', 'I'] then some (.ldi ra v) else none
  | [.reg ra, .reg rb] => (aluMnemonic m).map (fun f => f ra rb)
  | _ => none

/-- Assemble one line. -/
def line (cs : List Char) : Option Instr :=
  match parts cs with
  | (m, some ops) => build m ops
  | (_, none) => none

end Sys2Proof.Asm
end

