-- ==== Sys2Proof/Tests/Slice0.lean ====
section
/-! SUPPORT. Small tests of the model, each one instruction or one step, with expected values from the spec's own
examples and vectors (spec/95_test_vectors.md, the Example lines of 41 to 44), the smoke tests of WellFormed, and for each
statement with hypotheses a witness that meets all of them together. -/

namespace Sys2Proof.Tests

open Sys2Proof Sys2Proof.Machine

/-- The state after an outcome, if it is a next state. -/
def nextOf (o : Host.Outcome State Fault Refusal) : Option State :=
  match o with
  | .next s => some s
  | .fault _ => none
  | .refused _ => none

/-- The reset state with an image loaded at address 0. -/
def boot (image : List Byte) : State := loadBytes image 0 State.reset

/-- A state with some registers and an image, at pc 0. -/
def st (r0 r1 r2 sp : Byte) (image : List Byte) : State :=
  { boot image with regs := #v[r0, r1, r2, 0, 0, 0, 0, sp] }

/-- The state one step later. -/
def after (s : State) : State := (nextOf (step s)).getD s

theorem step_eq_after (s : State) (h : (nextOf (step s)).isSome = true) : step s = .next (after s) := by
  unfold after
  cases hs : step s with
  | next t => rfl
  | fault r => cases r
  | refused r => rw [hs] at h; cases h

/-! ### WellFormed: each check refuses its ill-formed operand -/

theorem test_wf_ldi_ra : (Instr.ldi 8 1).wellFormed = false := by decide
theorem test_wf_prn_ra : (Instr.prn 8).wellFormed = false := by decide
theorem test_wf_push_ra : (Instr.push 8).wellFormed = false := by decide
theorem test_wf_pop_ra : (Instr.pop 8).wellFormed = false := by decide
theorem test_wf_jmp_ra : (Instr.jmp 8).wellFormed = false := by decide
theorem test_wf_inc_ra : (Instr.inc 8 7).wellFormed = false := by decide
theorem test_wf_inc_rb : (Instr.inc 7 255).wellFormed = false := by decide
theorem test_wf_dec_ra : (Instr.dec 8 7).wellFormed = false := by decide
theorem test_wf_dec_rb : (Instr.dec 7 255).wellFormed = false := by decide
theorem test_wf_add_ra : (Instr.add 8 7).wellFormed = false := by decide
theorem test_wf_add_rb : (Instr.add 7 255).wellFormed = false := by decide
theorem test_wf_sub_ra : (Instr.sub 8 7).wellFormed = false := by decide
theorem test_wf_sub_rb : (Instr.sub 7 255).wellFormed = false := by decide
theorem test_wf_mul_ra : (Instr.mul 8 7).wellFormed = false := by decide
theorem test_wf_mul_rb : (Instr.mul 7 255).wellFormed = false := by decide
theorem test_wf_div_ra : (Instr.div 8 7).wellFormed = false := by decide
theorem test_wf_div_rb : (Instr.div 7 255).wellFormed = false := by decide
theorem test_wf_mod_ra : (Instr.mod 8 7).wellFormed = false := by decide
theorem test_wf_mod_rb : (Instr.mod 7 255).wellFormed = false := by decide
theorem test_wf_and_ra : (Instr.and 8 7).wellFormed = false := by decide
theorem test_wf_and_rb : (Instr.and 7 255).wellFormed = false := by decide
theorem test_wf_or_ra : (Instr.or 8 7).wellFormed = false := by decide
theorem test_wf_or_rb : (Instr.or 7 255).wellFormed = false := by decide
theorem test_wf_xor_ra : (Instr.xor 8 7).wellFormed = false := by decide
theorem test_wf_xor_rb : (Instr.xor 7 255).wellFormed = false := by decide
theorem test_wf_shl_ra : (Instr.shl 8 7).wellFormed = false := by decide
theorem test_wf_shl_rb : (Instr.shl 7 255).wellFormed = false := by decide
theorem test_wf_shr_ra : (Instr.shr 8 7).wellFormed = false := by decide
theorem test_wf_shr_rb : (Instr.shr 7 255).wellFormed = false := by decide
theorem test_wf_accepts_boundary : (Instr.add 7 0).wellFormed = true ∧ (Instr.ldi 7 255).wellFormed = true := by decide

/-! ### Decoding: one word of every instruction, written out bit by bit from 30_encoding.md R78 -/

theorem test_decode_hlt : decode [0b00000001] = .ok (.hlt, []) := by decide
theorem test_decode_ldi : decode [0b10000010, 0b00000101, 0b00000010] = .ok (.ldi 5 2, []) := by decide
theorem test_decode_prn : decode [0b01000111, 0b00000101] = .ok (.prn 5, []) := by decide
theorem test_decode_push : decode [0b01000101, 0b00000101] = .ok (.push 5, []) := by decide
theorem test_decode_pop : decode [0b01000110, 0b00000101] = .ok (.pop 5, []) := by decide
theorem test_decode_jmp : decode [0b01010100, 0b00000101] = .ok (.jmp 5, []) := by decide
theorem test_decode_inc : decode [0b10100101, 0b00000101, 0b00000010] = .ok (.inc 5 2, []) := by decide
theorem test_decode_dec : decode [0b10100110, 0b00000101, 0b00000010] = .ok (.dec 5 2, []) := by decide
theorem test_decode_add : decode [0b10100000, 0b00000101, 0b00000010] = .ok (.add 5 2, []) := by decide
theorem test_decode_sub : decode [0b10100001, 0b00000101, 0b00000010] = .ok (.sub 5 2, []) := by decide
theorem test_decode_mul : decode [0b10100010, 0b00000101, 0b00000010] = .ok (.mul 5 2, []) := by decide
theorem test_decode_div : decode [0b10100011, 0b00000101, 0b00000010] = .ok (.div 5 2, []) := by decide
theorem test_decode_mod : decode [0b10100100, 0b00000101, 0b00000010] = .ok (.mod 5 2, []) := by decide
theorem test_decode_and : decode [0b10101000, 0b00000101, 0b00000010] = .ok (.and 5 2, []) := by decide
theorem test_decode_or : decode [0b10101010, 0b00000101, 0b00000010] = .ok (.or 5 2, []) := by decide
theorem test_decode_xor : decode [0b10101011, 0b00000101, 0b00000010] = .ok (.xor 5 2, []) := by decide
theorem test_decode_shl : decode [0b10101100, 0b00000101, 0b00000010] = .ok (.shl 5 2, []) := by decide
theorem test_decode_shr : decode [0b10101101, 0b00000101, 0b00000010] = .ok (.shr 5 2, []) := by decide
theorem test_decode_rejects_unregistered : decode [0xFF, 0, 0, 0] = .error (.unsupportedOpcode 0xFF) := by decide
theorem test_decode_rejects_ls8_inc : decode [0x65, 0] = .error (.unsupportedOpcode 0x65) := by decide
theorem test_decode_rejects_missing_operand : decode [0x82, 0] = .error (.missingOperands 0x82) := by decide
theorem test_decode_rejects_nothing : decode [] = .error .noOpcode := by decide
theorem test_decode_table_word : decodeTableWord 24 0x090182 = some (.ldi 1 9) := by decide
theorem test_decode_table_word_operands_zero : decodeTableWord 8 0xA0 = some (.add 0 0) := by decide
theorem test_fetch_word_runs : (nextOf (step (State.reset.withFetchWord 24 0x2A0382))).map (fun t => (t.regs[3], t.pc)) =
    some (42, 3) := by decide

/-! ### One step of each instruction (the spec's examples and vectors) -/

theorem test_hlt : (after (boot [0x01])).run = .halted ∧ (after (boot [0x01])).pc = 1 := by decide
theorem test_ldi : ((after (boot [0x82, 0, 8])).regs[0], (after (boot [0x82, 0, 8])).pc) = (8, 3) := by decide
theorem test_ldi_sp : (after (boot [0x82, 7, 16])).sp = 16 := by decide
theorem test_prn_sp : ((after (boot [0x47, 7])).out, (after (boot [0x47, 7])).pc) = ([244], 2) := by decide
theorem test_push : ((after (st 42 0 0 244 [0x45, 0])).sp, (after (st 42 0 0 244 [0x45, 0])).mem.read 243) = (243, 42) := by
  decide
theorem test_push_sp_wraps_and_stores_itself :
    ((after (st 0 0 0 0 [0x45, 7])).sp, (after (st 0 0 0 0 [0x45, 7])).mem.read 255) = (255, 255) := by decide
theorem test_pop : ((after (st 0 0 0 1 [0x46, 0])).regs[0], (after (st 0 0 0 1 [0x46, 0])).sp) = (0, 2) := by decide
theorem test_pop_sp : (after (st 0 0 0 0 [0x46, 7])).sp = 0x47 := by decide
theorem test_jmp : (after (st 0 9 0 244 [0x54, 1])).pc = 9 := by decide
theorem test_add_200_100 : (after (st 200 100 0 244 [0xA0, 0, 1])).regs[0] = 44 := by decide
theorem test_add_255_1 : (after (st 255 1 0 244 [0xA0, 0, 1])).regs[0] = 0 := by decide
theorem test_sub_3_5 : (after (st 3 5 0 244 [0xA1, 0, 1])).regs[0] = 254 := by decide
theorem test_sub_0_255 : (after (st 0 255 0 244 [0xA1, 0, 1])).regs[0] = 1 := by decide
theorem test_mul_20_13 : (after (st 20 13 0 244 [0xA2, 0, 1])).regs[0] = 4 := by decide
theorem test_mul_255_255 : (after (st 255 255 0 244 [0xA2, 0, 1])).regs[0] = 1 := by decide
theorem test_div_200_7 : (after (st 200 7 0 244 [0xA3, 0, 1])).regs[0] = 28 := by decide
theorem test_div_5_7 : (after (st 5 7 0 244 [0xA3, 0, 1])).regs[0] = 0 := by decide
theorem test_mod_200_7 : (after (st 200 7 0 244 [0xA4, 0, 1])).regs[0] = 4 := by decide
theorem test_mod_255_16 : (after (st 255 16 0 244 [0xA4, 0, 1])).regs[0] = 15 := by decide
theorem test_inc_255_0 : (after (st 255 0 0 244 [0xA5, 0, 1])).regs[0] = 0 := by decide
theorem test_dec_0_0 : (after (st 0 0 0 244 [0xA6, 0, 1])).regs[0] = 255 := by decide
theorem test_and_240_60 : (after (st 240 60 0 244 [0xA8, 0, 1])).regs[0] = 48 := by decide
theorem test_or_240_60 : (after (st 240 60 0 244 [0xAA, 0, 1])).regs[0] = 252 := by decide
theorem test_xor_255_15 : (after (st 255 15 0 244 [0xAB, 0, 1])).regs[0] = 240 := by decide
theorem test_shl_129_1 : (after (st 129 1 0 244 [0xAC, 0, 1])).regs[0] = 2 := by decide
theorem test_shl_1_8 : (after (st 1 8 0 244 [0xAC, 0, 1])).regs[0] = 0 := by decide
theorem test_shr_128_7 : (after (st 128 7 0 244 [0xAD, 0, 1])).regs[0] = 1 := by decide
theorem test_shr_200_255 : (after (st 200 255 0 244 [0xAD, 0, 1])).regs[0] = 0 := by decide
theorem test_shl_same_register : (after (st 3 0 0 244 [0xAC, 0, 0])).regs[0] = 24 := by decide
theorem test_div_by_zero : after (st 9 0 0 244 [0xA3, 0, 1]) =
    { st 9 0 0 244 [0xA3, 0, 1] with run := .faulted .divisionByZero } := by decide
theorem test_inc_checks_operand_b : (after (boot [0xA5, 0, 8])).run = .faulted (.invalidRegister 8) := by decide
theorem test_bad_register_before_divisor : (after (boot [0xA3, 9, 1])).run = .faulted (.invalidRegister 9) := by decide
theorem test_push_bad_register : after (boot [0x45, 8]) =
    { boot [0x45, 8] with run := .faulted (.invalidRegister 8) } := by decide
theorem test_unregistered_at_reset : (after State.reset).run = .faulted (.unsupportedOpcode 0) := by decide

/-! ### Assembler (30_encoding.md R84, R85) -/

theorem test_asm_ldi : Asm.line ['L', 'D', 'I', ' ', 'R', '7', ',', ' ', '0', 'x', '1', '0'] = some (.ldi 7 16) := by decide
theorem test_asm_inc_pseudo : Asm.line ['I', 'N', 'C', ' ', 'R', '3'] = some (.inc 3 0) := by decide
theorem test_asm_refuses_r8 : Asm.line ['P', 'R', 'N', ' ', 'R', '8'] = none := by decide

/-! ### Witnesses: a concrete state and operands that meet the hypotheses of each statement -/

theorem witness_RegisterIndexAboveSevenRaises : 7 < (8 : Byte).toNat ∧ (7 : Byte).toNat ≤ 7 := by decide
theorem witness_RegisterReadsBackWhatWasWritten :
    (7 : Byte).toNat < 8 ∧ (6 : Byte) ≠ 7 ∧ writeReg State.reset 6 1 = .ok { State.reset with regs := State.reset.regs.set 6 1 } := by
  decide
theorem witness_MemoryReadsBackWhatWasWritten :
    255 < 256 ∧ 254 ≠ 255 ∧ memWrite State.reset 254 1 = .ok { State.reset with mem := [(254, 1)] } ∧ 256 ≤ 256 := by decide
theorem witness_CanonicalMemoriesThatReadAlikeAreEqual :
    Memory.wf [(0, 1), (255, 2)] ∧ ∀ a < 256, Memory.read [(0, 1), (255, 2)] a = Memory.read [(0, 1), (255, 2)] a :=
  ⟨by decide, fun _ _ => rfl⟩
theorem witness_NoProgramReachesUnsupportedOperation :
    State.reset.run ≠ .faulted (.unsupportedOperation "NOT") ∧ step State.reset = .next (after State.reset) :=
  ⟨by decide, step_eq_after _ (by decide)⟩
theorem witness_StepRunsTheDecodedInstruction :
    (boot [0x82, 0, 8]).run = .running ∧ (∀ (k : Nat) (h : k < 3),
      memRead (boot [0x82, 0, 8]) ((boot [0x82, 0, 8]).pc + k) = .ok ([0x82, 0, 8] : List Byte)[k]) ∧
    decode [0x82, 0, 8] = .ok (.ldi 0 8, []) := by decide
theorem witness_StepRunsTheFetchWord : decodeTableWord 16 0x0747 = some (.prn 7) := by decide
theorem witness_OpcodeFetchPastMemoryFaults :
    { State.reset with pc := 256 }.run = .running ∧ 256 ≤ { State.reset with pc := 256 }.pc := by decide
theorem witness_OperandFetchPastMemoryFaults :
    { State.reset with pc := 253, mem := [(253, 0xC0)] }.run = .running ∧
    memRead { State.reset with pc := 253, mem := [(253, 0xC0)] } 253 = .ok 0xC0 ∧ 255 < 253 + (0xC0 : Byte).toNat / 64 := by
  decide
theorem witness_UnregisteredOpcodeFaults :
    { State.reset with pc := 255 }.run = .running ∧ memRead { State.reset with pc := 255 } 255 = .ok 0 ∧
    255 + (0 : Byte).toNat / 64 ≤ 255 ∧ ∀ i : Instr, opcodeOf i ≠ 0 :=
  ⟨by decide, by decide, by decide, fun i => by cases i <;> (simp only [opcodeOf]; decide)⟩
theorem witness_TerminalStatesStayAsTheyAre : { State.reset with run := .faulted .divisionByZero }.run ≠ .running := by decide

/-- A cycle that completes: LDI R0, 8 from reset. -/
theorem ldi_completes : CycleCompletes (boot [0x82, 0, 8]) (after (boot [0x82, 0, 8])) :=
  ⟨by decide, step_eq_after _ (by decide), fun e => by rw [show (after (boot [0x82, 0, 8])).run = .running by decide]; simp⟩

/-- A cycle that completes: JMP R1 from reset. -/
theorem jmp_completes : CycleCompletes (boot [0x54, 1]) (after (boot [0x54, 1])) :=
  ⟨by decide, step_eq_after _ (by decide), fun e => by rw [show (after (boot [0x54, 1])).run = .running by decide]; simp⟩

/-- A cycle that completes: PRN R7 from reset. -/
theorem prn_completes : CycleCompletes (boot [0x47, 7]) (after (boot [0x47, 7])) :=
  ⟨by decide, step_eq_after _ (by decide), fun e => by rw [show (after (boot [0x47, 7])).run = .running by decide]; simp⟩

/-- A RUNNING machine whose last cell holds PRN, with pc at it: the operand fetch faults. -/
def prnAt255 : State := { State.reset with pc := 255, mem := [(255, 0x47)] }

/-- A HALTED machine whose pc stands at a PRN. -/
def haltedAtPrn : State := { boot [0x47, 7] with run := .halted }

theorem witness_PcAdvancesByOperandCountPlusOne :
    CycleCompletes (boot [0x82, 0, 8]) (after (boot [0x82, 0, 8])) ∧
    memRead (boot [0x82, 0, 8]) (boot [0x82, 0, 8]).pc = .ok 0x82 ∧ (0x82 : Byte).getLsbD 4 = false :=
  ⟨ldi_completes, by decide, by decide⟩
theorem witness_PcSetBitMeansPcTakesTheRegister :
    CycleCompletes (boot [0x54, 1]) (after (boot [0x54, 1])) ∧
    memRead (boot [0x54, 1]) (boot [0x54, 1]).pc = .ok 0x54 ∧ (0x54 : Byte).getLsbD 4 = true :=
  ⟨jmp_completes, by decide, by decide⟩
theorem witness_LdiLoadsTheImmediate : (7 : Byte).toNat < 8 := by decide
theorem witness_PrnEmitsTheRegister : (0 : Byte).toNat < 8 := by decide
theorem witness_PushStoresAtTheDecrementedSp : (7 : Byte).toNat < 8 := by decide
theorem witness_PopLoadsAndIncrementsSp : (6 : Byte).toNat < 8 ∧ (6 : Byte) ≠ 7 ∧ (7 : Byte).toNat < 8 ∧ (7 : Byte) = 7 := by decide
theorem witness_JmpSetsPcToTheRegister : (7 : Byte).toNat < 8 := by decide
theorem witness_AddWrapsModulo256 : (7 : Byte).toNat < 8 ∧ (7 : Byte).toNat < 8 := by decide
theorem witness_SubWrapsModulo256 : (7 : Byte).toNat < 8 ∧ (0 : Byte).toNat < 8 := by decide
theorem witness_MulKeepsTheLowByte : (0 : Byte).toNat < 8 ∧ (7 : Byte).toNat < 8 := by decide
theorem witness_DivAndModGiveQuotientAndRemainder :
    (0 : Byte).toNat < 8 ∧ ∃ h : (7 : Byte).toNat < 8, State.reset.regs[(7 : Byte).toNat] ≠ 0 := by decide
theorem witness_IncAddsOneModulo256 : (7 : Byte).toNat < 8 ∧ (7 : Byte).toNat < 8 := by decide
theorem witness_DecSubtractsOneModulo256 : (7 : Byte).toNat < 8 ∧ (0 : Byte).toNat < 8 := by decide
theorem witness_AndOrXorAreBitwise : (7 : Byte).toNat < 8 ∧ (0 : Byte).toNat < 8 := by decide
theorem witness_ShiftsUseTheWholeRegister : (0 : Byte).toNat < 8 ∧ (7 : Byte).toNat < 8 := by decide
theorem witness_InvalidOperandAFaultsPrecisely : 7 < (8 : Byte).toNat ∧ Instr.pop 8 ∈ [Instr.ldi 8 0, .pop 8] := by decide
theorem witness_InvalidOperandBFaultsPrecisely :
    (7 : Byte).toNat < 8 ∧ 7 < (8 : Byte).toNat ∧ Instr.shr 7 8 ∈ [Instr.inc 7 8, .shr 7 8] := by decide
theorem witness_DivisionByZeroFaultsPrecisely :
    (7 : Byte).toNat < 8 ∧ ∃ h : (0 : Byte).toNat < 8, State.reset.regs[(0 : Byte).toNat] = 0 := by decide
theorem witness_FaultingCycleChangesOnlyTheRunState :
    State.reset.run = .running ∧ step State.reset = .next (after State.reset) ∧
    (after State.reset).run = .faulted (.unsupportedOpcode 0) :=
  ⟨by decide, step_eq_after _ (by decide), by decide⟩
theorem witness_ErrorCodesTellTheFiveKindsApart :
    { State.reset with run := .faulted .divisionByZero }.run = .faulted .divisionByZero := by decide
theorem witness_StepKeepsInvariant :
    (boot [0x45, 0]).Inv ∧ step (boot [0x45, 0]) = .next (after (boot [0x45, 0])) :=
  ⟨by decide, step_eq_after _ (by decide)⟩
theorem witness_OnlyPushChangesMemory : step (boot [0x45, 7]) = .next (after (boot [0x45, 7])) :=
  step_eq_after _ (by decide)
theorem witness_EachCompletedPrnDeliversExactlyOneByte :
    CycleCompletes (boot [0x47, 7]) (after (boot [0x47, 7])) ∧
      memRead (boot [0x47, 7]) (boot [0x47, 7]).pc = .ok 0x47 :=
  ⟨prn_completes, by decide⟩
theorem witness_EachCompletedPrnDeliversExactlyOneByte_other_instruction :
    step (boot [0x54, 1]) = .next (after (boot [0x54, 1])) ∧
    ¬ (CycleCompletes (boot [0x54, 1]) (after (boot [0x54, 1])) ∧ memRead (boot [0x54, 1]) (boot [0x54, 1]).pc = .ok 0x47) :=
  ⟨step_eq_after _ (by decide), fun h => absurd h.2 (by decide)⟩
theorem witness_EachCompletedPrnDeliversExactlyOneByte_bad_operand :
    step (boot [0x47, 8]) = .next (after (boot [0x47, 8])) ∧
    ¬ (CycleCompletes (boot [0x47, 8]) (after (boot [0x47, 8])) ∧ memRead (boot [0x47, 8]) (boot [0x47, 8]).pc = .ok 0x47) :=
  ⟨step_eq_after _ (by decide), fun h => h.1.2.2 (.invalidRegister 8) (by decide)⟩
theorem witness_EachCompletedPrnDeliversExactlyOneByte_at_255 :
    step prnAt255 = .next (after prnAt255) ∧
    ¬ (CycleCompletes prnAt255 (after prnAt255) ∧ memRead prnAt255 prnAt255.pc = .ok 0x47) :=
  ⟨step_eq_after _ (by decide), fun h => h.1.2.2 (.invalidAddress 256) (by decide)⟩
theorem witness_EachCompletedPrnDeliversExactlyOneByte_halted :
    step haltedAtPrn = .next haltedAtPrn ∧
    ¬ (CycleCompletes haltedAtPrn haltedAtPrn ∧ memRead haltedAtPrn haltedAtPrn.pc = .ok 0x47) :=
  ⟨rfl, fun h => absurd h.1.1 (by decide)⟩
theorem witness_OnlyTheNamedRegistersAreWritten :
    exec (.pop 0) State.reset = .next ((nextOf (exec (.pop 0) State.reset)).getD State.reset) ∧ 6 < 8 ∧ 6 ∉ [(0 : Byte).toNat, 7] :=
  ⟨rfl, by decide, by decide⟩
theorem witness_OnlyHltOrAnErrorEndsTheRun :
    (boot [0x01]).run = .running ∧ step (boot [0x01]) = .next (after (boot [0x01])) :=
  ⟨by decide, step_eq_after _ (by decide)⟩
theorem witness_OutputIsNeverReadBack : step (boot [0x47, 7]) = .next (after (boot [0x47, 7])) :=
  step_eq_after _ (by decide)
theorem witness_PushThenPopRestoresTheValueAndSp : (6 : Byte).toNat < 7 ∧ (0 : Byte).toNat < 7 := by decide
theorem witness_ThreePushesPopInReverseOrder :
    (0 : Byte).toNat < 7 ∧ (1 : Byte).toNat < 7 ∧ (2 : Byte).toNat < 7 ∧ (4 : Byte).toNat < 7 ∧ (5 : Byte).toNat < 7 ∧
    (6 : Byte).toNat < 7 ∧ (4 : Byte) ≠ 5 ∧ (4 : Byte) ≠ 6 ∧ (5 : Byte) ≠ 6 := by decide
theorem witness_PushedCodeIsFetchedByTheNextCycle :
    ∃ h : (1 : Byte).toNat < 7, (st 0 1 0 3 [0x45, 1]).run = .running ∧ memRead (st 0 1 0 3 [0x45, 1]) 0 = .ok 0x45 ∧
    memRead (st 0 1 0 3 [0x45, 1]) (0 + 1) = .ok 1 ∧ (st 0 1 0 3 [0x45, 1]).regs[(1 : Byte).toNat] = 0x01 ∧
    ((st 0 1 0 3 [0x45, 1]).regs[7] - 1).toNat = (st 0 1 0 3 [0x45, 1]).pc + 2 := by decide
theorem witness_LoadWritesTheImageFromAddressZero :
    (List.replicate 256 (1 : Byte)).length ≤ 256 ∧ 256 < (List.replicate 257 (1 : Byte)).length := by
  simp only [List.length_replicate]; decide
theorem witness_OverlongImageFaultsAndNothingRuns : 256 < (List.replicate 257 (1 : Byte)).length := by
  simp only [List.length_replicate]; decide
theorem witness_LoadedStateMeetsInvariant : load [0x01] State.reset = .next (boot [0x01]) := rfl
theorem witness_LoadIsRefusedAfterTheFirstCycle :
    State.reset.run = .running ∧ runFor (0 + 1) State.reset = .next (after State.reset) := ⟨rfl, rfl⟩
theorem witness_HostStopBetweenCyclesChangesNothing : runFor 1 (boot [0x01]) = .next (after (boot [0x01])) := rfl

end Sys2Proof.Tests
end

section
/-! The register file (spec/10_state.md): its reset values, its index check, and what a read answers after a write. -/

namespace Sys2Proof.Machine

/-! ### A register read after a register write -/

theorem readReg_writeReg_same {s t : State} {r v : Byte} (h : writeReg s r v = .ok t) : readReg t r = .ok v := by
  rcases writeReg_cases s r v with ⟨hr, hw⟩ | ⟨_, hw⟩
  · cases hw.symm.trans h
    simp [readReg_valid _ r hr]
  · cases hw.symm.trans h

theorem readReg_writeReg_other {s t : State} {r r' v : Byte} (hne : r' ≠ r) (h : writeReg s r' v = .ok t) :
    readReg t r = readReg s r := by
  rcases writeReg_cases s r' v with ⟨hr', hw⟩ | ⟨_, hw⟩
  · cases hw.symm.trans h
    have hidx : r'.toNat ≠ r.toNat := fun e => hne (BitVec.eq_of_toNat_eq e)
    rcases readReg_cases s r with ⟨hr, hread⟩ | ⟨hr, hread⟩
    · rw [hread, readReg_valid _ r hr, Vector.getElem_set_ne hr' hr hidx]
    · rw [hread, readReg_invalid _ r hr]
  · cases hw.symm.trans h

/-! ### The statements -/

/-- Settles O1: the eight registers of the fixed reset state, each evaluated. -/
theorem resetRegistersAndPc : Obligations.ResetRegistersAndPc := by
  unfold Obligations.ResetRegistersAndPc
  exact ⟨by decide, rfl, rfl⟩

/-- Settles O4, from what the two register accesses answer on either side of the index check. -/
theorem registerIndexAboveSevenRaises : Obligations.RegisterIndexAboveSevenRaises := by
  intro s i v
  constructor
  · intro hbad
    have hi : ¬ i.toNat < 8 := by omega
    exact ⟨readReg_invalid s i hi, writeReg_invalid s i v hi⟩
  · intro hgood
    have hi : i.toNat < 8 := by omega
    exact ⟨⟨_, readReg_valid s i hi⟩, ⟨_, writeReg_valid s i v hi⟩⟩

/-- Settles O5: the read finds the written byte, and a write to another register leaves the read's answer alone. -/
theorem registerReadsBackWhatWasWritten : Obligations.RegisterReadsBackWhatWasWritten := by
  intro s r v hr
  have hw := writeReg_valid s r v hr
  have hread := readReg_writeReg_same hw
  exact ⟨_, hw, hread, fun _ _ _ hne hw' => (readReg_writeReg_other hne hw').trans hread⟩

end Sys2Proof.Machine
end

section
/-! The memory cells (spec/20_memory.md R53): what a read answers after a write, and where both accesses fail. -/

namespace Sys2Proof.Machine

/-! ### A memory read after a memory write -/

/-- A memory write that succeeds is inside the address space and changes the memory alone. -/
theorem memWrite_eq_ok {s t : State} {a : Nat} {v : Byte} (h : memWrite s a v = .ok t) :
    a < 256 ∧ t = { s with mem := s.mem.write a v } := by
  by_cases ha : a < 256
  · rw [memWrite_valid s a v ha] at h; cases h; exact ⟨ha, rfl⟩
  · rw [memWrite_invalid s a v ha] at h; cases h

theorem memRead_memWrite_same {s t : State} {a : Nat} {v : Byte} (h : memWrite s a v = .ok t) :
    memRead t a = .ok v := by
  obtain ⟨ha, rfl⟩ := memWrite_eq_ok h
  rw [memRead_valid _ a ha, Memory.read_write_same]

theorem memRead_memWrite_other {s t : State} {a b : Nat} {v : Byte} (hne : b ≠ a) (h : memWrite s a v = .ok t) :
    memRead t b = memRead s b := by
  obtain ⟨_, rfl⟩ := memWrite_eq_ok h
  by_cases hb : b < 256
  · rw [memRead_valid _ b hb, memRead_valid s b hb, Memory.read_write_other _ _ _ _ hne]
  · rw [memRead_invalid _ b hb, memRead_invalid s b hb]

/-! ### The statement -/

/-- Settles O6: inside the address space by the two laws of a read after a write, the second one used again for the
later write to another address; outside it by the range check both accesses make. -/
theorem memoryReadsBackWhatWasWritten : Obligations.MemoryReadsBackWhatWasWritten := by
  intro s a v
  constructor
  · intro ha
    have hw := memWrite_valid s a v ha
    have hread := memRead_memWrite_same hw
    exact ⟨_, hw, hread, fun _ hne => memRead_memWrite_other hne hw, rfl,
      fun _ _ _ hne hw' => (memRead_memWrite_other hne.symm hw').trans hread⟩
  · intro hout
    have ha : ¬ a < 256 := by omega
    exact ⟨memRead_invalid s a ha, memWrite_invalid s a v ha⟩

end Sys2Proof.Machine
end

section
/-! The encoding (spec/30_encoding.md): the decoder reads back what the encoder writes, the source's own program
(R86), and the constraints the document puts on the opcode assignment (R82). -/

namespace Sys2Proof

/-! ### Decoding an encoded program -/

/-- No operand bit is dropped, and no byte of the rest is consumed: the decoder evaluates at each encoding. -/
theorem decode_encode_append (i : Instr) (rest : List Byte) : decode (encode i ++ rest) = .ok (i, rest) := by
  cases i <;> rfl

/-- Once `decode` has read the first instruction, `decodeAll` goes on with the bytes it left. -/
theorem decodeAll_succ_of_decode {bytes rest : List Byte} {i : Instr} (fuel : Nat)
    (h : decode bytes = .ok (i, rest)) : decodeAll (fuel + 1) bytes = (decodeAll fuel rest).map (i :: ·) := by
  cases bytes with
  | nil => cases h
  | cons op tail =>
    simp only [decodeAll, h]
    cases decodeAll fuel rest <;> rfl

/-- Concatenated encodings are read back, one instruction after another (20_memory.md R65). -/
theorem decodeAll_encodeAll (is : List Instr) : decodeAll is.length (encodeAll is) = .ok is := by
  induction is with
  | nil => rfl
  | cons i is ih =>
    calc decodeAll (is.length + 1) (encode i ++ encodeAll is)
      _ = (decodeAll is.length (encodeAll is)).map (i :: ·) := decodeAll_succ_of_decode _ (decode_encode_append i _)
      _ = .ok (i :: is) := by rw [ih]; rfl

/-! ### The fields of the opcode byte -/

/-- Bits 7:6 as the quotient by 64. -/
theorem operandCount_eq_div (op : Byte) : operandCount op = op.toNat / 64 := by
  simp [operandCount, Nat.shiftRight_eq_div_pow]

/-- No assigned opcode asks for three operand bytes (30_encoding.md R72). -/
theorem operandCount_opcodeOf_le (i : Instr) : operandCount (opcodeOf i) ≤ 2 := by
  cases i <;> simp [opcodeOf]

theorem pcSetBit_opcodeOf_iff (i : Instr) : pcSetBit (opcodeOf i) = true ↔ ∃ ra, i = .jmp ra := by
  cases i <;> simp [opcodeOf]

/-- The byte 0xFF asks for three operand bytes, so it is no instruction's opcode. -/
theorem opcodeOf_ne_ff (i : Instr) : opcodeOf i ≠ 0xFF := by
  intro h
  have hle := operandCount_opcodeOf_le i
  have hff : operandCount 0xFF = 3 := by decide
  rw [h, hff] at hle
  omega

/-- The handlers' opcode bytes are pairwise distinct, as a list of bytes. -/
theorem handlers_opcodes_nodup : (handlers.map Prod.fst).Nodup :=
  List.pairwise_map.mpr handlers_distinct

/-! ### The statements -/

/-- Settles O10: the twelve bytes are the encoding of the five instructions, which therefore decodes to them. -/
theorem sourceProgramBytesDecode : Obligations.SourceProgramBytesDecode :=
  ⟨decodeAll_encodeAll [.ldi 0 8, .ldi 1 9, .add 0 1, .prn 0, .hlt], rfl, ⟨operandCount_ldi, pcSetBit_ldi⟩,
    ⟨operandCount_add, pcSetBit_add⟩, ⟨operandCount_prn, pcSetBit_prn⟩, ⟨operandCount_hlt, pcSetBit_hlt⟩⟩

/-- Settles O12: the two fields by the opcode map, distinctness because no two handlers share an opcode, and 0xFF
because its operand count is 3. -/
theorem opcodeAssignmentMeetsTheDocumentsConstraints : Obligations.OpcodeAssignmentMeetsTheDocumentsConstraints := by
  refine ⟨fun i => ?_, pcSetBit_opcodeOf_iff, fun _ _ => handlers_opcodes_nodup, opcodeOf_ne_ff,
    fun _ _ => ⟨rfl, rfl, rfl, rfl⟩⟩
  rw [← operandCount_eq_div]
  cases i <;> simp [opcodeOf]

end Sys2Proof
end

section
/-! The cycle (spec/40_cycle.md): how pc moves over a cycle that completes (R101), and that nothing executes after HLT
(R97). -/

namespace Sys2Proof.Machine

/-! ### Only JMP's handler writes pc -/

/-- A handler that raises when its operand names no register, and leaves pc alone when it names one. -/
theorem pc_of_index_check {s u : State} {ra : Byte} {staged : Except FatalError State}
    (hvalid : ra.toNat < 8 → ∃ w, staged = .ok w ∧ w.pc = s.pc)
    (hinvalid : ¬ ra.toNat < 8 → staged = .error (.invalidRegister ra)) (h : staged = .ok u) : u.pc = s.pc := by
  by_cases hra : ra.toNat < 8
  · obtain ⟨w, hw, hpc⟩ := hvalid hra
    cases hw.symm.trans h
    exact hpc
  · cases (hinvalid hra).symm.trans h

theorem aluHandler_pc {op : AluOp} {s u : State} {ra rb : Byte} (h : aluHandler op ra rb s = .ok u) :
    u.pc = s.pc := by
  rcases aluHandler_cases op ra rb s with ⟨_, ha⟩ | ⟨_, _, ha⟩ | ⟨_, _, _, _, ha⟩ | ⟨_, _, _, ha⟩
  · cases ha.symm.trans h
  · cases ha.symm.trans h
  · cases ha.symm.trans h
  · cases ha.symm.trans h; rfl

/-- A handler whose opcode has bit 4 clear leaves pc to the end of the cycle. -/
theorem handlerOf_pc {i : Instr} {s u : State} (hP : pcSetBit (opcodeOf i) = false) (h : handlerOf i s = .ok u) :
    u.pc = s.pc := by
  cases i with
  | hlt => cases (hltHandler_eq s).symm.trans h; rfl
  | ldi ra imm => exact pc_of_index_check (fun hra => ⟨_, ldiHandler_valid ra imm s hra, rfl⟩) (ldiHandler_invalid ra imm s) h
  | prn ra => exact pc_of_index_check (fun hra => ⟨_, prnHandler_valid ra s hra, rfl⟩) (prnHandler_invalid ra s) h
  | push ra => exact pc_of_index_check (fun hra => ⟨_, pushHandler_valid ra s hra, rfl⟩) (pushHandler_invalid ra s) h
  | pop ra => exact pc_of_index_check (fun hra => ⟨_, popHandler_valid ra s hra, rfl⟩) (popHandler_invalid ra s) h
  | jmp => cases pcSetBit_jmp.symm.trans hP
  | inc | dec | add | sub | mul | div | mod | and | or | xor | shl | shr => exact aluHandler_pc h

/-! ### A cycle that completes -/

/-- What a completed cycle did: the handler of the instruction whose opcode stands at pc raised nothing, and `t` is the
state it left, with the pc update. -/
theorem cycleCompletes_cases {s t : State} (h : CycleCompletes s t) :
    ∃ i u, memRead s s.pc = .ok (opcodeOf i) ∧ handlerOf i s = .ok u ∧ t = updatePc (opcodeOf i) u := by
  obtain ⟨hrun, hstep, hok⟩ := h
  rcases step_cases s with ⟨hr, _⟩ | ⟨_, e, hs, _⟩ | ⟨_, hin, i, hs, hop, _⟩
  · exact absurd hrun hr
  · cases hs.symm.trans hstep
    exact absurd (raise_run e s) (hok e)
  · rw [hs, exec_eq_finishCycle] at hstep
    rcases finishCycle_cases _ _ _ _ hstep with ⟨e, _, rfl⟩ | ⟨u, hu, ht⟩
    · exact absurd (raise_run e s) (hok e)
    · exact ⟨i, u, hop ▸ memRead_valid s s.pc (by omega), hu, ht⟩

/-! ### A machine that is not RUNNING -/

theorem runFor_of_not_running (k : Nat) (s : State) (h : s.run ≠ .running) : runFor k s = .next s := by
  cases k with
  | zero => rfl
  | succ k =>
    unfold runFor
    cases hr : s.run with
    | running => exact absurd hr h
    | halted => rfl
    | faulted e => rfl

theorem completedCycles_of_not_running (k : Nat) (s : State) (h : s.run ≠ .running) : completedCycles k s = 0 := by
  cases k with
  | zero => rfl
  | succ k =>
    unfold completedCycles
    cases hr : s.run with
    | running => exact absurd hr h
    | halted => rfl
    | faulted e => rfl

/-- HLT's whole effect (41_hlt_ldi_prn.md R110): HALTED, and pc moves past its one byte. -/
theorem exec_hlt (s : State) : exec .hlt s = .next { s with run := .halted, pc := s.pc + 1 } := by
  rw [exec_eq_finishCycle]
  exact finishCycle_advance _ _ _ pcSetBit_hlt

/-! ### The statements -/

/-- Settles O22: with bit 4 clear the handler leaves pc alone, and the pc update adds the operand count and 1. -/
theorem pcAdvancesByOperandCountPlusOne : Obligations.PcAdvancesByOperandCountPlusOne := by
  intro s t op hc hread hbit
  obtain ⟨i, u, hop, hu, rfl⟩ := cycleCompletes_cases hc
  cases hop.symm.trans hread
  have hP : pcSetBit (opcodeOf i) = false := hbit
  rw [updatePc_pc, hP, handlerOf_pc hP hu, operandCount_eq_div]
  rfl

/-- Settles O25: HLT leaves the machine HALTED, and a machine that is not RUNNING stays as it is. -/
theorem hltIsANormalTerminalState : Obligations.HltIsANormalTerminalState := by
  intro s
  have hstop : ({ s with run := .halted, pc := s.pc + 1 } : State).run ≠ .running := nofun
  exact ⟨_, exec_hlt s, rfl, step_of_not_running _ hstop,
    fun k => ⟨runFor_of_not_running k _ hstop, completedCycles_of_not_running k _ hstop⟩⟩

end Sys2Proof.Machine
end

section
/-! The decoder and the lookup (spec/30_encoding.md): which bytes decode to an instruction, and which opcode bytes have
a handler. -/

namespace Sys2Proof

/-! ### The lookup -/

/-- The bytes of an instruction: its opcode byte, then as many operand bytes as bits 7:6 of that byte ask for. -/
theorem encode_length (i : Instr) : (encode i).length = operandCount (opcodeOf i) + 1 := by
  cases i <;> simp [encode, opcodeOf]

theorem encode_getElem_zero (i : Instr) (h : 0 < (encode i).length) : (encode i)[0] = opcodeOf i := by
  cases i <;> rfl

/-- Looking an instruction's opcode up with its own operand bytes, or 0 for an absent one, answers the instruction. -/
theorem lookup_encode (i : Instr) : lookup (opcodeOf i) ((encode i).getD 1 0) ((encode i).getD 2 0) = some i := by
  cases i <;> rfl

/-- An instruction that the lookup answers has the looked-up opcode, and its operand bytes are the front of the latch. -/
theorem encode_of_lookup {op a b : Byte} {i : Instr} (h : lookup op a b = some i) :
    encode i = op :: [a, b].take (operandCount op) := by
  obtain rfl := lookup_opcodeOf h
  have hi : some i = lookup (opcodeOf i) a b := h.symm
  cases i <;> cases hi <;> simp [encode, opcodeOf]

/-- The lookup misses exactly the opcode bytes that stand in no handler (30_encoding.md R74). -/
theorem lookup_eq_none_iff (op a b : Byte) : lookup op a b = none ↔ op ∉ handlers.map Prod.fst := by
  simp only [lookup, Option.map_eq_none_iff, List.find?_eq_none, List.mem_map, beq_iff_eq]
  exact ⟨fun h ⟨g, hg, e⟩ => h g hg e, fun h g hg e => h ⟨g, hg, e⟩⟩

theorem lookup_eq_none_of_forall_opcodeOf_ne {op : Byte} (a b : Byte) (h : ∀ i, opcodeOf i ≠ op) :
    lookup op a b = none :=
  Option.eq_none_iff_forall_ne_some.mpr fun i hi => h i (lookup_opcodeOf hi)

/-- The opcode numbers with a handler are the handlers' opcode bytes, in another order. -/
theorem handled_numbers_perm :
    ((List.range 256).filter (fun n => !(lookup (BitVec.ofNat 8 n) 0 0).isNone)).Perm
      ((handlers.map Prod.fst).map BitVec.toNat) := by
  refine (List.perm_ext_iff_of_nodup (List.nodup_range.filter _)
    (handlers_opcodes_nodup.map fun _ _ => BitVec.eq_of_toNat_eq)).mpr fun n => ?_
  simp only [List.mem_filter, List.mem_range, Bool.not_eq_true', Option.isNone_eq_false_iff,
    ← Option.ne_none_iff_isSome, ne_eq, lookup_eq_none_iff, not_not, List.mem_map (f := BitVec.toNat)]
  constructor
  · rintro ⟨hn, hop⟩
    exact ⟨_, hop, by simp; omega⟩
  · rintro ⟨op, hop, rfl⟩
    exact ⟨op.isLt, by simpa using hop⟩

/-! ### The decoder -/

/-- What a list of bytes that decodes looks like: an opcode, the operand bytes it asks for, and the rest. -/
theorem decode_eq_ok {bytes rest : List Byte} {i : Instr} (h : decode bytes = .ok (i, rest)) :
    ∃ op tail, bytes = op :: tail ∧ operandCount op ≤ tail.length ∧
      lookup op (if 1 ≤ operandCount op then tail.getD 0 0 else 0) (if 2 ≤ operandCount op then tail.getD 1 0 else 0) =
        some i ∧
      rest = tail.drop (operandCount op) := by
  cases bytes with
  | nil => cases h
  | cons op tail =>
    simp only [decode] at h
    split at h
    · cases h
    next hlen =>
      split at h
      · cases h
      next hl => cases h; exact ⟨op, tail, rfl, by omega, hl, rfl⟩

/-- Up to two operand bytes, the latch holds the front of what follows the opcode. -/
theorem latch_take (tail : List Byte) {n : Nat} (h2 : n ≤ 2) (hlen : n ≤ tail.length) :
    [if 1 ≤ n then tail.getD 0 0 else 0, if 2 ≤ n then tail.getD 1 0 else 0].take n = tail.take n := by
  match n, tail with
  | 0, _ => rfl
  | 1, a :: _ => rfl
  | 2, a :: b :: _ => rfl

theorem eq_encode_append_of_decode {bytes rest : List Byte} {i : Instr} (h : decode bytes = .ok (i, rest)) :
    bytes = encode i ++ rest := by
  obtain ⟨op, tail, rfl, hlen, hl, rfl⟩ := decode_eq_ok h
  have h2 : operandCount op ≤ 2 := lookup_opcodeOf hl ▸ operandCount_opcodeOf_le i
  rw [encode_of_lookup hl, latch_take tail h2 hlen, List.cons_append, List.take_append_drop]

/-- Each encoding by itself decodes to its instruction, with no byte left. -/
theorem map_decode_map_encode (is : List Instr) : (is.map encode).map decode = is.map fun i => .ok (i, []) := by
  rw [List.map_map]
  exact List.map_congr_left fun i _ => by simpa using decode_encode_append i []

/-! ### The statements -/

/-- Settles O13: an encoding followed by a rest is read back, and conversely the lookup gives back the bytes it was
asked with. -/
theorem decodeReadsExactlyTheEncodings : Obligations.DecodeReadsExactlyTheEncodings :=
  fun _ i rest => ⟨eq_encode_append_of_decode, fun h => h ▸ decode_encode_append i rest⟩

/-- Settles O14: the law of concatenated encodings. -/
theorem programImageDecodesToItsInstructions : Obligations.ProgramImageDecodesToItsInstructions :=
  decodeAll_encodeAll

/-- Settles O11: each written-out word is the encoding of the instruction it should decode to. -/
theorem decidedOpcodeBytesDecode : Obligations.DecidedOpcodeBytesDecode :=
  ⟨map_decode_map_encode [.push 2, .pop 3, .jmp 1], map_decode_map_encode [.inc 2 0, .dec 2 0],
    map_decode_map_encode [.sub 5 2, .mul 5 2, .div 5 2, .mod 5 2],
    map_decode_map_encode [.and 5 2, .or 5 2, .xor 5 2], map_decode_map_encode [.shl 5 2, .shr 5 2]⟩

/-- Settles O15: the 18 listed bytes are the handlers' opcodes up to their order, and the numbers without a handler are
what those 18 leave of 256. -/
theorem exactlyEighteenOpcodesHaveAHandler : Obligations.ExactlyEighteenOpcodesHaveAHandler := by
  refine ⟨lookup_eq_none_iff, ?_⟩
  have hsplit := List.length_eq_length_filter_add (l := List.range 256)
    fun n => (lookup (BitVec.ofNat 8 n) 0 0).isNone
  rw [handled_numbers_perm.length_eq, List.length_range] at hsplit
  exact Nat.add_right_cancel hsplit.symm

end Sys2Proof
end

section
/-! The canonical form of memory (spec/20_memory.md section 1): it holds the cells that read as something else than an
unlisted one, and nothing more. -/

namespace Sys2Proof.Machine

/-- A canonical memory lists exactly the cells that do not read as an unlisted one, each with the byte it reads. -/
theorem Memory.mem_iff_read {m : Memory} (hm : m.wf) (c : Host.Cell) :
    c ∈ m ↔ m.read c.1 = c.2 ∧ c.2 ≠ Memory.unlisted := by
  induction m with
  | nil => exact ⟨nofun, fun ⟨hread, hv⟩ => absurd hread.symm hv⟩
  | cons d m ih =>
    obtain ⟨hsorted, hcells⟩ := hm
    obtain ⟨hhead, htail⟩ := List.pairwise_cons.mp hsorted
    have ih := ih ⟨htail, fun e he => hcells e (List.mem_cons_of_mem _ he)⟩
    rw [List.mem_cons, Memory.read_cons]
    by_cases ha : c.1 = d.1
    · have hnot : c ∉ m := fun hc => absurd (hhead c hc) (by omega)
      have hd : d.2 ≠ Memory.unlisted := (hcells d List.mem_cons_self).2
      rw [if_pos ha]
      constructor
      · rintro (rfl | hc)
        · exact ⟨rfl, hd⟩
        · exact absurd hc hnot
      · rintro ⟨hv, _⟩
        exact .inl (Prod.ext ha hv.symm)
    · have hne : c ≠ d := fun e => ha (congrArg Prod.fst e)
      rw [if_neg ha, ← ih]
      exact or_iff_right hne

/-- A canonical memory reads as unlisted outside the address space. -/
theorem Memory.read_outside {m : Memory} (hm : m.wf) {a : Nat} (ha : 256 ≤ a) : m.read a = Memory.unlisted :=
  Memory.read_of_not_listed m a fun c hc e => absurd (hm.2 c hc).1 (by rw [e]; exact Nat.not_lt.mpr ha)

/-- Settles O7: both lists are strictly sorted by address, and what they read decides which cells they hold. -/
theorem canonicalMemoriesThatReadAlikeAreEqual : Obligations.CanonicalMemoriesThatReadAlikeAreEqual := by
  intro m m' hm hm' hread
  have hall : ∀ a, m.read a = m'.read a := fun a => by
    by_cases ha : a < 256
    · exact hread a ha
    · rw [Memory.read_outside hm (by omega), Memory.read_outside hm' (by omega)]
  have : Std.Irrefl fun c d : Host.Cell => c.1 < d.1 := ⟨fun _ => Nat.lt_irrefl _⟩
  have : Std.Antisymm fun c d : Host.Cell => c.1 < d.1 := ⟨fun _ _ h h' => absurd h' (Nat.lt_asymm h)⟩
  exact hm.1.eq_of_mem_iff hm'.1 fun c => by rw [Memory.mem_iff_read hm, Memory.mem_iff_read hm', hall]

end Sys2Proof.Machine
end

section
/-! The ALU (spec/44_alu.md section 1): each operation's result, as a number modulo 256 and as a byte. -/

namespace Sys2Proof.Machine

/-! ### The masked result as a number -/

/-- Without a divisor of 0 the ALU answers the residue of the exact result (44_alu.md R136). -/
theorem alu_residue {op : AluOp} {A B : Byte} (h : ¬ (divides op = true ∧ B = 0)) :
    ∃ r, alu op A B = .ok r ∧ (r.toNat : Int) = exactResult op A.toNat B.toNat % 256 := by
  rcases alu_cases op A B with ⟨hd, hB, _⟩ | ⟨_, hok⟩
  · exact absurd ⟨hd, hB⟩ h
  · exact ⟨_, hok, mask8_toNat _⟩

/-- The same where the exact result is a natural number. -/
theorem alu_residue_nat {op : AluOp} {A B : Byte} {n : Nat} (h : ¬ (divides op = true ∧ B = 0))
    (hn : exactResult op A.toNat B.toNat = n) : ∃ r, alu op A B = .ok r ∧ r.toNat = n % 256 := by
  obtain ⟨r, hr, hv⟩ := alu_residue h
  exact ⟨r, hr, by rw [hn] at hv; omega⟩

/-- A result that fits a byte is not masked. -/
theorem alu_exact {op : AluOp} {A B : Byte} {n : Nat} (h : ¬ (divides op = true ∧ B = 0))
    (hn : exactResult op A.toNat B.toNat = n) (hlt : n < 256) : ∃ r, alu op A B = .ok r ∧ r.toNat = n := by
  obtain ⟨r, hr, hv⟩ := alu_residue_nat h hn
  exact ⟨r, hr, hv.trans (Nat.mod_eq_of_lt hlt)⟩

/-- A dividing operation raises DivisionByZero exactly for the divisor 0 (44_alu.md R137). -/
theorem alu_eq_divisionByZero_iff {op : AluOp} (hop : divides op = true) (A B : Byte) :
    alu op A B = .error .divisionByZero ↔ B = 0 := by
  rcases alu_cases op A B with ⟨_, hB, h⟩ | ⟨hn, h⟩
  · exact iff_of_true h hB
  · exact iff_of_false (by rw [h]; exact nofun) fun hB => hn ⟨hop, hB⟩

/-! ### The result as a byte -/

/-- The ALU answers the byte whose number is the residue of the exact result. -/
theorem alu_eq_ok {op : AluOp} {A B v : Byte} (h : ¬ (divides op = true ∧ B = 0))
    (hv : exactResult op A.toNat B.toNat % 256 = v.toNat) : alu op A B = .ok v := by
  obtain ⟨r, hr, hres⟩ := alu_residue (A := A) h
  rw [hr, BitVec.eq_of_toNat_eq (x := r) (y := v) (by omega)]

/-- An exact result that is a byte's number is that byte. -/
theorem alu_eq_ok_of_exact {op : AluOp} {A B v : Byte} (h : ¬ (divides op = true ∧ B = 0))
    (hv : exactResult op A.toNat B.toNat = v.toNat) : alu op A B = .ok v :=
  alu_eq_ok h (by rw [hv]; have := v.isLt; omega)

theorem alu_add (A B : Byte) : alu .add A B = .ok (A + B) :=
  alu_eq_ok nofun (by simp [exactResult])

theorem alu_sub (A B : Byte) : alu .sub A B = .ok (A - B) :=
  alu_eq_ok nofun (by have := B.isLt; simp only [exactResult, BitVec.toNat_sub]; omega)

theorem alu_mul (A B : Byte) : alu .mul A B = .ok (A * B) :=
  alu_eq_ok nofun (by simp [exactResult])

theorem alu_and (A B : Byte) : alu .and A B = .ok (A &&& B) := alu_eq_ok_of_exact nofun rfl

theorem alu_or (A B : Byte) : alu .or A B = .ok (A ||| B) := alu_eq_ok_of_exact nofun rfl

theorem alu_xor (A B : Byte) : alu .xor A B = .ok (A ^^^ B) := alu_eq_ok_of_exact nofun rfl

theorem alu_shr (A B : Byte) : alu .shr A B = .ok (A >>> B.toNat) := alu_eq_ok_of_exact nofun rfl

theorem alu_shl (A B : Byte) : alu .shl A B = .ok (A <<< B.toNat) :=
  alu_eq_ok nofun (by simp only [exactResult, BitVec.toNat_shiftLeft]; omega)

theorem alu_div {A B : Byte} (h : B ≠ 0) : alu .div A B = .ok (BitVec.ofNat 8 (A.toNat / B.toNat)) :=
  alu_eq_ok (fun hd => h hd.2) (by simp only [exactResult, BitVec.toNat_ofNat]; omega)

theorem alu_mod {A B : Byte} (h : B ≠ 0) : alu .mod A B = .ok (BitVec.ofNat 8 (A.toNat % B.toNat)) :=
  alu_eq_ok (fun hd => h hd.2) (by simp only [exactResult, BitVec.toNat_ofNat]; omega)

/-! ### The ALU asked by name -/

theorem aluOpOfName_eq_none_iff (name : String) : aluOpOfName name = none ↔
    name ∉ ["ADD", "SUB", "MUL", "DIV", "MOD", "INC", "DEC", "AND", "OR", "XOR", "SHL", "SHR"] := by
  unfold aluOpOfName
  split <;> simp_all

/-- The ALU asked for one of its operations never raises UnsupportedOperation. -/
theorem alu_ne_unsupportedOperation (op : AluOp) (A B : Byte) (name : String) :
    alu op A B ≠ .error (.unsupportedOperation name) := by
  rcases alu_cases op A B with ⟨_, _, h⟩ | ⟨_, h⟩ <;> (rw [h]; exact nofun)

theorem aluByName_eq_unsupportedOperation_iff (name : String) (A B : Byte) :
    aluByName name A B = .error (.unsupportedOperation name) ↔ aluOpOfName name = none := by
  unfold aluByName
  cases aluOpOfName name with
  | none => exact iff_of_true rfl rfl
  | some op => exact iff_of_false (alu_ne_unsupportedOperation op A B name) nofun

/-! ### The statement -/

/-- Settles O8: every clause is the residue of the exact result, and a result that cannot leave 0..255 is the exact
result itself. -/
theorem aluComputesUnsignedArithmeticModulo256 : Obligations.AluComputesUnsignedArithmeticModulo256 := by
  intro A B
  have hA := A.isLt
  have hB := B.isLt
  refine ⟨alu_residue_nat nofun rfl, alu_residue nofun, alu_residue_nat nofun rfl, alu_residue_nat nofun rfl,
    alu_residue nofun, alu_exact nofun rfl (Nat.and_lt_two_pow _ hB), alu_exact nofun rfl (Nat.or_lt_two_pow hA hB),
    alu_exact nofun rfl (Nat.xor_lt_two_pow hA hB), ?_, ?_, ?_,
    alu_eq_divisionByZero_iff rfl A B, alu_eq_divisionByZero_iff rfl A B⟩
  case refine_1 => exact Nat.shiftLeft_eq A.toNat B.toNat ▸ alu_residue_nat nofun rfl
  case refine_2 =>
    rw [← Nat.shiftRight_eq_div_pow]
    exact alu_exact nofun rfl (lt_of_le_of_lt (Nat.shiftRight_le _ _) hA)
  case refine_3 =>
    intro hB0
    have hpos : 0 < B.toNat := Nat.pos_of_ne_zero fun e => hB0 (BitVec.eq_of_toNat_eq e)
    have hmod := Nat.mod_lt A.toNat hpos
    obtain ⟨q, hq, hqv⟩ := alu_exact (op := .div) (fun h => hB0 h.2) rfl (lt_of_le_of_lt (Nat.div_le_self _ _) hA)
    obtain ⟨r, hr, hrv⟩ := alu_exact (op := .mod) (fun h => hB0 h.2) rfl (hmod.trans hB)
    exact ⟨q, r, hq, hr, by rw [hqv, hrv, Nat.div_add_mod'], hrv ▸ hmod⟩

end Sys2Proof.Machine
end

section
/-! Each instruction's whole next state (spec/41_hlt_ldi_prn.md to 44_alu.md), and the fault of each bad operand
(60_exceptions.md). -/

namespace Sys2Proof.Machine

/-! ### From a handler's answer to the cycle's -/

theorem exec_of_handlerOf_error {i : Instr} {s : State} {e : FatalError} (h : handlerOf i s = .error e) :
    exec i s = .next { s with run := .faulted e } := by
  rw [exec_eq_finishCycle, h]; rfl

/-- With bit 4 clear, what the handler left with pc moved past the operands. -/
theorem exec_of_handlerOf_ok (i : Instr) {s u : State} {n : Nat} (hP : pcSetBit (opcodeOf i) = false)
    (hn : operandCount (opcodeOf i) = n) (h : handlerOf i s = .ok u) :
    exec i s = .next { u with pc := u.pc + n + 1 } := by
  rw [exec_eq_finishCycle, h, finishCycle_advance _ _ _ hP, hn]

/-! ### The stack instructions -/

/-- What PUSH leaves (42_stack.md R121). -/
theorem exec_push (s : State) (ra : Byte) (h : ra.toNat < 8) :
    exec (.push ra) s = .next
      { s with
        regs := s.regs.set 7 (s.regs[7] - 1)
        mem := s.mem.write (s.regs[7] - 1).toNat (if ra = 7 then s.regs[7] - 1 else s.regs[ra.toNat])
        pc := s.pc + 2 } :=
  (exec_of_handlerOf_ok (.push ra) pcSetBit_push operandCount_push (pushHandler_valid ra s h) :)

/-- What POP leaves (42_stack.md R122). -/
theorem exec_pop (s : State) (ra : Byte) (h : ra.toNat < 8) :
    exec (.pop ra) s = .next
      { s with
        regs :=
          if ra = 7 then s.regs.set 7 (s.mem.read s.regs[7].toNat + 1)
          else (s.regs.set ra.toNat (s.mem.read s.regs[7].toNat)).set 7 (s.regs[7] + 1)
        pc := s.pc + 2 } :=
  (exec_of_handlerOf_ok (.pop ra) pcSetBit_pop operandCount_pop (popHandler_valid ra s h) :)

/-! ### The twelve ALU instructions -/

/-- The instruction that wraps an ALU operation (44_alu.md R140). -/
def AluOp.instr : AluOp → Byte → Byte → Instr
  | .add => .add
  | .sub => .sub
  | .mul => .mul
  | .div => .div
  | .mod => .mod
  | .inc => .inc
  | .dec => .dec
  | .and => .and
  | .or => .or
  | .xor => .xor
  | .shl => .shl
  | .shr => .shr

@[simp] theorem handlerOf_aluInstr (op : AluOp) (ra rb : Byte) (s : State) :
    handlerOf (op.instr ra rb) s = aluHandler op ra rb s := by
  cases op <;> rfl

@[simp] theorem pcSetBit_aluInstr (op : AluOp) (ra rb : Byte) : pcSetBit (opcodeOf (op.instr ra rb)) = false := by
  cases op <;> simp [AluOp.instr, opcodeOf]

@[simp] theorem operandCount_aluInstr (op : AluOp) (ra rb : Byte) :
    operandCount (opcodeOf (op.instr ra rb)) = 2 := by
  cases op <;> simp [AluOp.instr, opcodeOf]

/-- With valid indices the common form is the ALU's answer, written to the first register. -/
theorem aluHandler_valid {ra rb : Byte} (op : AluOp) (s : State) (ha : ra.toNat < 8) (hb : rb.toNat < 8) :
    aluHandler op ra rb s =
      (alu op s.regs[ra.toNat] s.regs[rb.toNat]).map fun v => { s with regs := s.regs.set ra.toNat v } := by
  simp only [aluHandler, readReg_valid s ra ha, readReg_valid s rb hb, writeReg_valid s ra _ ha, bind, Except.bind]
  cases alu op s.regs[ra.toNat] s.regs[rb.toNat] <;> rfl

theorem aluHandler_invalid_left {ra : Byte} (op : AluOp) (rb : Byte) (s : State) (ha : ¬ ra.toNat < 8) :
    aluHandler op ra rb s = .error (.invalidRegister ra) := by
  simp only [aluHandler, readReg_invalid s ra ha, bind, Except.bind]

theorem aluHandler_invalid_right {ra rb : Byte} (op : AluOp) (s : State) (ha : ra.toNat < 8) (hb : ¬ rb.toNat < 8) :
    aluHandler op ra rb s = .error (.invalidRegister rb) := by
  simp only [aluHandler, readReg_valid s ra ha, readReg_invalid s rb hb, bind, Except.bind]

/-- A byte the ALU answers goes to the first register, and pc moves by 3. -/
theorem exec_alu {ra rb v : Byte} (op : AluOp) (s : State) (ha : ra.toNat < 8) (hb : rb.toNat < 8)
    (h : alu op s.regs[ra.toNat] s.regs[rb.toNat] = .ok v) :
    exec (op.instr ra rb) s = .next { s with regs := s.regs.set ra.toNat v, pc := s.pc + 3 } :=
  exec_of_handlerOf_ok (op.instr ra rb) (pcSetBit_aluInstr op ra rb) (operandCount_aluInstr op ra rb)
    (by rw [handlerOf_aluInstr, aluHandler_valid op s ha hb, h]; rfl)

/-- An error the ALU raises is the cycle's fault. -/
theorem exec_alu_error {ra rb : Byte} {e : FatalError} (op : AluOp) (s : State) (ha : ra.toNat < 8)
    (hb : rb.toNat < 8) (h : alu op s.regs[ra.toNat] s.regs[rb.toNat] = .error e) :
    exec (op.instr ra rb) s = .next { s with run := .faulted e } :=
  exec_of_handlerOf_error (by rw [handlerOf_aluInstr, aluHandler_valid op s ha hb, h]; rfl)

/-- The ALU instructions of two operand bytes, in the order the statements list them. -/
def aluInstrs (a b : Byte) : List Instr :=
  [AluOp.inc, .dec, .add, .sub, .mul, .div, .mod, .and, .or, .xor, .shl, .shr].map fun op => op.instr a b

theorem exists_op_of_mem_aluInstrs {a b : Byte} {i : Instr} (h : i ∈ aluInstrs a b) : ∃ op : AluOp, i = op.instr a b :=
  let ⟨op, _, hop⟩ := List.mem_map.mp h
  ⟨op, hop.symm⟩

/-- LDI, PRN, PUSH, POP and JMP check their index before anything else. -/
theorem handlerOf_invalid_operand_a {a : Byte} (b : Byte) (s : State) (ha : ¬ a.toNat < 8) {i : Instr}
    (h : i ∈ [Instr.ldi a b, .prn a, .push a, .pop a, .jmp a]) : handlerOf i s = .error (.invalidRegister a) := by
  simp only [List.mem_cons, List.not_mem_nil, or_false] at h
  obtain rfl | rfl | rfl | rfl | rfl := h
  · exact ldiHandler_invalid a b s ha
  · exact prnHandler_invalid a s ha
  · exact pushHandler_invalid a s ha
  · exact popHandler_invalid a s ha
  · exact jmpHandler_invalid a s ha

/-! ### The statements -/

/-- Settles O24: the equation of HLT. -/
theorem hltHaltsAndAdvances : Obligations.HltHaltsAndAdvances := exec_hlt

/-- Settles O26, from LDI's one write. -/
theorem ldiLoadsTheImmediate : Obligations.LdiLoadsTheImmediate :=
  fun s ra imm h => (exec_of_handlerOf_ok (.ldi ra imm) pcSetBit_ldi operandCount_ldi (ldiHandler_valid ra imm s h) :)

/-- Settles O27, from PRN's one emitted byte. -/
theorem prnEmitsTheRegister : Obligations.PrnEmitsTheRegister :=
  fun s ra h => (exec_of_handlerOf_ok (.prn ra) pcSetBit_prn operandCount_prn (prnHandler_valid ra s h) :)

/-- Settles O28: the equation of PUSH, and the law of a memory read after its one store. -/
theorem pushStoresAtTheDecrementedSp : Obligations.PushStoresAtTheDecrementedSp := by
  intro s ra h
  refine ⟨_, exec_push s ra h, rfl, fun b => ?_⟩
  by_cases hb : b < 256
  · rw [memRead_valid _ b hb, memRead_valid s b hb, Memory.read_write]
    split <;> rfl
  · have hne : b ≠ (s.regs[7] - 1).toNat := fun e => hb (e ▸ (s.regs[7] - 1).isLt)
    rw [memRead_invalid _ b hb, memRead_invalid s b hb, if_neg hne]

/-- Settles O29: the equation of POP, whose load from SP is always in range. -/
theorem popLoadsAndIncrementsSp : Obligations.PopLoadsAndIncrementsSp := by
  intro s ra h
  refine ⟨_, memRead_valid s _ s.regs[7].isLt, fun h7 => ?_, fun h7 => ?_⟩
  · rw [exec_pop s ra h, if_neg h7]
  · rw [exec_pop s ra h, if_pos h7]

/-- Settles O30: JMP's handler sets pc, and with bit 4 set the cycle leaves it there. -/
theorem jmpSetsPcToTheRegister : Obligations.JmpSetsPcToTheRegister := by
  intro s ra h
  rw [exec_eq_finishCycle, show handlerOf (.jmp ra) s = _ from jmpHandler_valid ra s h]
  simp [updatePc, opcodeOf, setPc]

/-- Settles O31, from the ALU's ADD as a byte operation. -/
theorem addWrapsModulo256 : Obligations.AddWrapsModulo256 :=
  fun s _ _ ha hb => exec_alu .add s ha hb (alu_add _ _)

/-- Settles O32, from the ALU's SUB as a byte operation. -/
theorem subWrapsModulo256 : Obligations.SubWrapsModulo256 :=
  fun s _ _ ha hb => exec_alu .sub s ha hb (alu_sub _ _)

/-- Settles O33, from the ALU's MUL as a byte operation. -/
theorem mulKeepsTheLowByte : Obligations.MulKeepsTheLowByte :=
  fun s _ _ ha hb => exec_alu .mul s ha hb (alu_mul _ _)

/-- Settles O34, from the ALU's DIV and MOD with a divisor that is not 0. -/
theorem divAndModGiveQuotientAndRemainder : Obligations.DivAndModGiveQuotientAndRemainder :=
  fun s _ _ ha hb hdiv => ⟨exec_alu .div s ha hb (alu_div hdiv), exec_alu .mod s ha hb (alu_mod hdiv)⟩

/-- Settles O35, from the ALU's INC. -/
theorem incAddsOneModulo256 : Obligations.IncAddsOneModulo256 :=
  fun s _ _ ha hb => exec_alu .inc s ha hb (alu_inc _ _)

/-- Settles O36, from the ALU's DEC. -/
theorem decSubtractsOneModulo256 : Obligations.DecSubtractsOneModulo256 :=
  fun s _ _ ha hb => exec_alu .dec s ha hb (alu_dec _ _)

/-- Settles O37, from the ALU's three bitwise operations. -/
theorem andOrXorAreBitwise : Obligations.AndOrXorAreBitwise :=
  fun s _ _ ha hb =>
    ⟨exec_alu .and s ha hb (alu_and _ _), exec_alu .or s ha hb (alu_or _ _), exec_alu .xor s ha hb (alu_xor _ _)⟩

/-- Settles O38, from the ALU's two shifts by the whole second byte. -/
theorem shiftsUseTheWholeRegister : Obligations.ShiftsUseTheWholeRegister :=
  fun s _ _ ha hb => ⟨exec_alu .shl s ha hb (alu_shl _ _), exec_alu .shr s ha hb (alu_shr _ _)⟩

/-- Settles O39: the index check of operand_a is the first thing each of the 17 handlers does. -/
theorem invalidOperandAFaultsPrecisely : Obligations.InvalidOperandAFaultsPrecisely := by
  intro s a b ha i hi
  have hbad : ¬ a.toNat < 8 := by omega
  refine exec_of_handlerOf_error ?_
  obtain hi | hi := List.mem_append.mp (show i ∈ [.ldi a b, .prn a, .push a, .pop a, .jmp a] ++ aluInstrs a b from hi)
  · exact handlerOf_invalid_operand_a b s hbad hi
  · obtain ⟨op, rfl⟩ := exists_op_of_mem_aluInstrs hi
    rw [handlerOf_aluInstr, aluHandler_invalid_left op b s hbad]

/-- Settles O40: after a valid operand_a the common form checks operand_b, whatever the operation. -/
theorem invalidOperandBFaultsPrecisely : Obligations.InvalidOperandBFaultsPrecisely := by
  intro s a b ha hb i hi
  obtain ⟨op, rfl⟩ := exists_op_of_mem_aluInstrs (show i ∈ aluInstrs a b from hi)
  exact exec_of_handlerOf_error (by rw [handlerOf_aluInstr, aluHandler_invalid_right op s ha (by omega)])

/-- Settles O41: the ALU's DivisionByZero is the cycle's fault. -/
theorem divisionByZeroFaultsPrecisely : Obligations.DivisionByZeroFaultsPrecisely :=
  fun s _ _ ha hb hzero =>
    ⟨exec_alu_error .div s ha hb ((alu_eq_divisionByZero_iff rfl _ _).mpr hzero),
      exec_alu_error .mod s ha hb ((alu_eq_divisionByZero_iff rfl _ _).mpr hzero)⟩

end Sys2Proof.Machine
end

section
/-! What a handler that raises nothing leaves, by kind of instruction, and what it can raise. Every statement about
single steps below starts from these two. -/

namespace Sys2Proof.Machine

/-- The registers that the register-access table names as written (10_state.md section 2). -/
def writtenRegs : Instr → List Nat
  | .hlt | .prn _ | .jmp _ => []
  | .push _ => [7]
  | .pop ra => [ra.toNat, 7]
  | .ldi ra _ | .inc ra _ | .dec ra _ | .add ra _ | .sub ra _ | .mul ra _ | .div ra _ | .mod ra _ | .and ra _
  | .or ra _ | .xor ra _ | .shl ra _ | .shr ra _ => [ra.toNat]

/-- The states a handler can leave before the pc update: HLT, PRN, JMP and PUSH each in its own way, and every other
instruction with nothing but its named registers changed. -/
inductive Effect (s : State) : Instr → State → Prop
  | hlt : Effect s .hlt (halt s)
  | prn {ra : Byte} (h : ra.toNat < 8) : Effect s (.prn ra) (emit s s.regs[ra.toNat])
  | jmp {ra : Byte} (h : ra.toNat < 8) : Effect s (.jmp ra) (setPc s s.regs[ra.toNat])
  | push {ra : Byte} (h : ra.toNat < 8) : Effect s (.push ra)
      { s with
        regs := s.regs.set 7 (s.regs[7] - 1)
        mem := s.mem.write (s.regs[7] - 1).toNat (if ra = 7 then s.regs[7] - 1 else s.regs[ra.toNat]) }
  | regs {i : Instr} {x : Vector Byte 8} (hi : writtenRegs i ≠ [])
      (hx : ∀ (r : Nat) (hr : r < 8), r ∉ writtenRegs i → x[r] = s.regs[r]) : Effect s i { s with regs := x }

/-- The errors a handler can raise: the other three kinds belong to the fetch, the lookup and the ALU asked by name. -/
def HandlerError (e : FatalError) : Prop := (∃ r, e = .invalidRegister r) ∨ e = .divisionByZero

/-- A handler whose one check is an index check. -/
theorem effect_of_index_check {i : Instr} {s : State} {ra : Byte} {staged : Except FatalError State}
    (hvalid : ra.toNat < 8 → ∃ u, staged = .ok u ∧ Effect s i u)
    (hinvalid : ¬ ra.toNat < 8 → staged = .error (.invalidRegister ra)) :
    (∃ e, staged = .error e ∧ HandlerError e) ∨ ∃ u, staged = .ok u ∧ Effect s i u := by
  by_cases h : ra.toNat < 8
  · exact .inr (hvalid h)
  · exact .inl ⟨_, hinvalid h, .inl ⟨ra, rfl⟩⟩

/-- Writing one named register leaves the registers that are not named. -/
theorem getElem_set_of_not_mem {x : Vector Byte 8} {v : Byte} {n r : Nat} {named : List Nat} (hn : n < 8) (hr : r < 8)
    (hmem : n ∈ named) (hnot : r ∉ named) : (x.set n v)[r] = x[r] :=
  Vector.getElem_set_ne hn hr fun e => hnot (e ▸ hmem)

theorem aluHandler_effect {op : AluOp} {ra rb : Byte} {s : State} {i : Instr} (hi : writtenRegs i = [ra.toNat]) :
    (∃ e, aluHandler op ra rb s = .error e ∧ HandlerError e) ∨ ∃ u, aluHandler op ra rb s = .ok u ∧ Effect s i u := by
  rcases aluHandler_cases op ra rb s with ⟨_, h⟩ | ⟨_, _, h⟩ | ⟨_, _, _, _, h⟩ | ⟨ha, _, _, h⟩
  · exact .inl ⟨_, h, .inl ⟨ra, rfl⟩⟩
  · exact .inl ⟨_, h, .inl ⟨rb, rfl⟩⟩
  · exact .inl ⟨_, h, .inr rfl⟩
  · exact .inr ⟨_, h, .regs (by simp [hi]) fun _ hr => getElem_set_of_not_mem ha hr (by simp [hi])⟩

/-- Everything a handler can do. -/
theorem handlerOf_cases (i : Instr) (s : State) :
    (∃ e, handlerOf i s = .error e ∧ HandlerError e) ∨ ∃ u, handlerOf i s = .ok u ∧ Effect s i u := by
  cases i with
  | hlt => exact .inr ⟨_, hltHandler_eq s, .hlt⟩
  | prn ra => exact effect_of_index_check (fun h => ⟨_, prnHandler_valid ra s h, .prn h⟩) (prnHandler_invalid ra s)
  | jmp ra => exact effect_of_index_check (fun h => ⟨_, jmpHandler_valid ra s h, .jmp h⟩) (jmpHandler_invalid ra s)
  | push ra => exact effect_of_index_check (fun h => ⟨_, pushHandler_valid ra s h, .push h⟩) (pushHandler_invalid ra s)
  | ldi ra imm =>
    refine effect_of_index_check (fun h => ⟨_, ldiHandler_valid ra imm s h, .regs (by simp [writtenRegs]) ?_⟩)
      (ldiHandler_invalid ra imm s)
    exact fun _ hr => getElem_set_of_not_mem h hr (by simp [writtenRegs])
  | pop ra =>
    refine effect_of_index_check (fun h => ⟨_, popHandler_valid ra s h, .regs (by simp [writtenRegs]) ?_⟩)
      (popHandler_invalid ra s)
    intro r hr hnot
    have h7 : 7 ∈ writtenRegs (.pop ra) := by simp [writtenRegs]
    have ha : ra.toNat ∈ writtenRegs (.pop ra) := by simp [writtenRegs]
    split
    · exact getElem_set_of_not_mem _ hr h7 hnot
    · exact (getElem_set_of_not_mem _ hr h7 hnot).trans (getElem_set_of_not_mem h hr ha hnot)
  | inc | dec | add | sub | mul | div | mod | and | or | xor | shl | shr => exact aluHandler_effect rfl

theorem effect_of_handlerOf_ok {i : Instr} {s u : State} (h : handlerOf i s = .ok u) : Effect s i u := by
  rcases handlerOf_cases i s with ⟨_, he, _⟩ | ⟨_, hok, hu⟩
  · cases he.symm.trans h
  · cases hok.symm.trans h; exact hu

/-! ### One field of the state at a time -/

theorem Effect.regs_eq {s u : State} {i : Instr} (h : Effect s i u) {r : Nat} (hr : r < 8) (hnot : r ∉ writtenRegs i) :
    u.regs[r] = s.regs[r] := by
  cases h with
  | hlt | prn | jmp => rfl
  | push => exact getElem_set_of_not_mem (by decide) hr (by simp [writtenRegs]) hnot
  | regs _ hx => exact hx r hr hnot

theorem Effect.mem_eq {s u : State} {i : Instr} (h : Effect s i u) : u.mem = s.mem ∨ ∃ ra, i = .push ra := by
  cases h with
  | hlt | prn | jmp | regs => exact .inl rfl
  | push => exact .inr ⟨_, rfl⟩

theorem Effect.mem_wf {s u : State} {i : Instr} (h : Effect s i u) (hs : s.mem.wf) : u.mem.wf := by
  cases h with
  | hlt | prn | jmp | regs => exact hs
  | push => exact Memory.wf_write _ _ _ hs (s.regs[7] - 1).isLt

theorem Effect.run_eq {s u : State} {i : Instr} (h : Effect s i u) : u.run = s.run ∨ i = .hlt ∧ u.run = .halted := by
  cases h with
  | hlt => exact .inr ⟨rfl, rfl⟩
  | prn | jmp | push | regs => exact .inl rfl

/-- A handler of a RUNNING machine does not leave it FAULTED. -/
theorem Effect.noError {s u : State} {i : Instr} (h : Effect s i u) (hs : s.run = .running) : u.NoError := by
  intro e
  rcases h.run_eq with hr | ⟨_, hr⟩
  · rw [hr, hs]; exact nofun
  · rw [hr]; exact nofun

theorem Effect.out_eq {s u : State} {i : Instr} (h : Effect s i u) : u.out = s.out ∨ ∃ ra, i = .prn ra := by
  cases h with
  | hlt | jmp | push | regs => exact .inl rfl
  | prn => exact .inr ⟨_, rfl⟩

theorem Effect.prn_eq {s u : State} {ra : Byte} (h : Effect s (.prn ra) u) :
    ∃ hr : ra.toNat < 8, u = emit s s.regs[ra.toNat] := by
  cases h with
  | prn hr => exact ⟨hr, rfl⟩
  | regs hi => exact absurd rfl hi

theorem Effect.jmp_eq {s u : State} {ra : Byte} (h : Effect s (.jmp ra) u) :
    ∃ hr : ra.toNat < 8, u = setPc s s.regs[ra.toNat] := by
  cases h with
  | jmp hr => exact ⟨hr, rfl⟩
  | regs hi => exact absurd rfl hi

/-- With bit 4 of JMP's opcode set, the pc update keeps what the handler set. -/
theorem updatePc_jmp (u : State) : updatePc Opcode.jmp u = u := if_pos pcSetBit_jmp

/-- After the pc update, pc has moved past the operands, or the instruction was JMP and set it to a byte's number. -/
theorem updatePc_cases {s u : State} {i : Instr} (hu : handlerOf i s = .ok u) :
    (updatePc (opcodeOf i) u).pc = s.pc + operandCount (opcodeOf i) + 1 ∨
      ∃ ra, i = .jmp ra ∧ ∃ v : Byte, updatePc (opcodeOf i) u = setPc s v := by
  cases hP : pcSetBit (opcodeOf i) with
  | false => left; rw [updatePc_pc, hP, handlerOf_pc hP hu]; rfl
  | true =>
    obtain ⟨ra, rfl⟩ := (pcSetBit_opcodeOf_iff i).mp hP
    obtain ⟨_, rfl⟩ := (effect_of_handlerOf_ok hu).jmp_eq
    exact .inr ⟨ra, rfl, _, updatePc_jmp _⟩

end Sys2Proof.Machine
end

section
/-! What a step does, from the bytes that stand at pc: a RUNNING machine runs the instruction whose encoding memory
holds there, and every step is one of three kinds. -/

namespace Sys2Proof.Machine

/-! ### The bytes at pc -/

/-- Memory holds these bytes from pc on. -/
def HoldsAtPc (s : State) (bytes : List Byte) : Prop :=
  ∀ (k : Nat) (h : k < bytes.length), memRead s (s.pc + k) = .ok bytes[k]

theorem HoldsAtPc.append_left {s : State} {bytes rest : List Byte} (h : HoldsAtPc s (bytes ++ rest)) :
    HoldsAtPc s bytes := fun k hk => by
  rw [h k (by rw [List.length_append]; omega), List.getElem_append_left hk]

section
variable {s : State} {i : Instr} (h : HoldsAtPc s (encode i))
include h

theorem HoldsAtPc.opcode : memRead s s.pc = .ok (opcodeOf i) := by
  have hpos : 0 < (encode i).length := by rw [encode_length]; omega
  exact encode_getElem_zero i hpos ▸ h 0 hpos

theorem HoldsAtPc.read_pc : s.mem.read s.pc = opcodeOf i := (memRead_eq_ok s _ _ h.opcode).2

theorem HoldsAtPc.inside : s.pc + operandCount (opcodeOf i) < 256 :=
  (memRead_eq_ok s _ _ (h _ (by rw [encode_length]; omega))).1

/-- The fetch's operand byte `k` is the encoding's, or 0 where the encoding has none. -/
theorem HoldsAtPc.latch (k : Nat) :
    (if k ≤ operandCount (opcodeOf i) then s.mem.read (s.pc + k) else 0) = (encode i).getD k 0 := by
  have hlen := encode_length i
  split
  next hk =>
    have hk' : k < (encode i).length := by omega
    rw [List.getD_eq_getElem _ _ hk', (memRead_eq_ok s _ _ (h k hk')).2]
  next hk => rw [List.getD_eq_default _ _ (by omega)]

theorem HoldsAtPc.fetch_eq :
    fetch s = .ok { op := opcodeOf i, a := (encode i).getD 1 0, b := (encode i).getD 2 0 } := by
  rw [fetch_inside s (by rw [h.read_pc]; exact h.inside), h.read_pc, h.latch 1, h.latch 2]

/-- A RUNNING machine runs the instruction whose encoding stands at pc. -/
theorem step_of_holdsAtPc (hr : s.run = .running) : step s = exec i s := by
  rw [step_of_running s hr, runCycle_exec s _ i h.fetch_eq (lookup_encode i)]

end

/-- What the lookup answers for the bytes at pc has its encoding there. -/
theorem holdsAtPc_of_lookup {s : State} {i : Instr} (hin : s.pc + operandCount (s.mem.read s.pc) < 256)
    (hl : lookup (s.mem.read s.pc)
      (if 1 ≤ operandCount (s.mem.read s.pc) then s.mem.read (s.pc + 1) else 0)
      (if 2 ≤ operandCount (s.mem.read s.pc) then s.mem.read (s.pc + 2) else 0) = some i) :
    HoldsAtPc s (encode i) := by
  intro k hk
  have hop := lookup_opcodeOf hl
  have h2 := operandCount_opcodeOf_le i
  rw [encode_length, hop] at hk
  rw [hop] at h2
  rw [memRead_valid s _ (by omega)]
  simp only [encode_of_lookup hl]
  obtain rfl | rfl | rfl : k = 0 ∨ k = 1 ∨ k = 2 := by omega
  · rfl
  · simp [show 1 ≤ operandCount (s.mem.read s.pc) by omega]
  · simp [show operandCount (s.mem.read s.pc) = 2 by omega]

/-! ### The three kinds of step -/

/-- Everything a step can do: nothing, in a terminal state; the entry of a fault, on the state as it was; or the whole
cycle of the instruction whose encoding stands at pc. -/
theorem step_next_cases {s t : State} (h : step s = .next t) :
    (s.run ≠ .running ∧ t = s) ∨
    (s.run = .running ∧ ∃ e, t = raise e s ∧ ∀ name, e ≠ .unsupportedOperation name) ∨
    (s.run = .running ∧ ∃ i u, HoldsAtPc s (encode i) ∧ handlerOf i s = .ok u ∧ t = updatePc (opcodeOf i) u) := by
  rcases step_cases s with ⟨hr, hs⟩ | ⟨hr, e, hs, he⟩ | ⟨hr, hin, i, hs, _, hl⟩
  · cases hs.symm.trans h; exact .inl ⟨hr, rfl⟩
  · cases hs.symm.trans h
    refine .inr (.inl ⟨hr, e, rfl, fun name => ?_⟩)
    rcases he with rfl | rfl | rfl <;> exact nofun
  · rw [hs, exec_eq_finishCycle] at h
    rcases handlerOf_cases i s with ⟨e, he, hkind⟩ | ⟨u, hu, _⟩
    · rw [he] at h; cases h
      refine .inr (.inl ⟨hr, e, rfl, fun name => ?_⟩)
      rcases hkind with ⟨_, rfl⟩ | rfl <;> exact nofun
    · rw [hu] at h; cases h
      exact .inr (.inr ⟨hr, i, u, holdsAtPc_of_lookup hin hl, hu, rfl⟩)

/-- A step always answers a next state: each of the three outcomes of a cycle is one. -/
theorem exists_step_next (s : State) : ∃ t, step s = .next t := by
  rcases step_cases s with ⟨_, hs⟩ | ⟨_, _, hs, _⟩ | ⟨_, _, i, hs, _⟩
  · exact ⟨_, hs⟩
  · exact ⟨_, hs⟩
  · rw [hs, exec_eq_finishCycle]
    cases handlerOf i s <;> exact ⟨_, rfl⟩

/-- The third kind of step, for a cycle that completes. -/
theorem cycleCompletes_handler {s t : State} (h : CycleCompletes s t) :
    ∃ i u, HoldsAtPc s (encode i) ∧ handlerOf i s = .ok u ∧ t = updatePc (opcodeOf i) u := by
  obtain ⟨hrun, hstep, hok⟩ := h
  rcases step_next_cases hstep with ⟨hr, _⟩ | ⟨_, e, rfl, _⟩ | ⟨_, hdone⟩
  · exact absurd hrun hr
  · exact absurd (raise_run e s) (hok e)
  · exact hdone

/-- A step from RUNNING into FAULTED enters a fault on the state as it was. -/
theorem eq_raise_of_step_faulted {s t : State} {e : FatalError} (hrun : s.run = .running) (hstep : step s = .next t)
    (ht : t.run = .faulted e) : t = raise e s ∧ ∀ name, e ≠ .unsupportedOperation name := by
  rcases step_next_cases hstep with ⟨hr, _⟩ | ⟨_, e', rfl, he⟩ | ⟨_, i, u, _, hu, rfl⟩
  · exact absurd hrun hr
  · cases (raise_run e' s).symm.trans ht
    exact ⟨rfl, he⟩
  · rw [updatePc_run] at ht
    exact absurd ht ((effect_of_handlerOf_ok hu).noError hrun e)

/-! ### The statements about one step -/

/-- Settles O45: a terminal state and a fault keep memory and pc, and a cycle keeps the canonical form and moves pc at
most past an instruction that lies inside memory. -/
theorem stepKeepsInvariant : Obligations.StepKeepsInvariant := by
  intro s t ⟨hmem, hpc⟩ hstep
  rcases step_next_cases hstep with ⟨_, rfl⟩ | ⟨_, e, rfl, _⟩ | ⟨_, i, u, hat, hu, rfl⟩
  · exact ⟨hmem, hpc⟩
  · exact ⟨hmem, hpc⟩
  · refine ⟨by rw [updatePc_mem]; exact (effect_of_handlerOf_ok hu).mem_wf hmem, ?_⟩
    rcases updatePc_cases hu with hnext | ⟨_, _, v, hjmp⟩
    · rw [hnext]; exact hat.inside
    · rw [hjmp, setPc_pc]; exact Nat.le_of_lt v.isLt

/-- Settles O9: the ALU asked for one of its twelve operations raises only DivisionByZero, and neither the fetch, the
lookup nor a handler raises UnsupportedOperation. -/
theorem noProgramReachesUnsupportedOperation : Obligations.NoProgramReachesUnsupportedOperation := by
  refine ⟨fun name A B =>
    (aluByName_eq_unsupportedOperation_iff name A B).trans (aluOpOfName_eq_none_iff name), ?_⟩
  intro s t name hs hstep ht
  by_cases hrun : s.run = .running
  · exact (eq_raise_of_step_faulted hrun hstep ht).2 name rfl
  · cases (step_of_not_running s hrun).symm.trans hstep
    exact hs ht

/-- Settles O16: the bytes are the decoded instruction's encoding and a rest, so its encoding stands at pc. -/
theorem stepRunsTheDecodedInstruction : Obligations.StepRunsTheDecodedInstruction := by
  intro s bytes i rest hrun hat hdec
  obtain rfl := eq_encode_append_of_decode hdec
  exact step_of_holdsAtPc (HoldsAtPc.append_left hat) hrun

/-- Bytes placed at the fetch stand at the pc of the state they were placed in. -/
theorem holdsAtPc_placeAtFetch (s : State) {bytes : List Byte} (hlen : bytes.length = 3) :
    HoldsAtPc (placeAtFetch s bytes) bytes := by
  intro k hk
  have hplace : placeAddress s + 3 ≤ 256 := by
    unfold placeAddress
    split
    · assumption
    · decide
  rw [placeAtFetch_pc, memRead_valid _ _ (by omega), placeAtFetch_mem, Memory.read_writeBytes,
    if_pos ⟨by omega, by omega⟩, Nat.add_sub_cancel_left, List.getD_eq_getElem _ _ hk]

/-- Settles O17: the table word's three bytes stand at the fetch, and decode to the instruction. -/
theorem stepRunsTheFetchWord : Obligations.StepRunsTheFetchWord := by
  intro s nbits w i hw
  refine ⟨?_, rfl, rfl⟩
  unfold decodeTableWord at hw
  split at hw
  next j rest hdec =>
    cases hw
    exact stepRunsTheDecodedInstruction _ _ _ rest rfl (holdsAtPc_placeAtFetch s (by simp [tableBytes])) hdec
  next => cases hw

/-- Settles O18: the opcode fetch fails, and that failure is the cycle's fault. -/
theorem opcodeFetchPastMemoryFaults : Obligations.OpcodeFetchPastMemoryFaults := by
  intro s hrun hpc
  rw [step_of_running s hrun, runCycle_fetch_error s _ (fetch_outside s (by omega))]
  rfl

/-- Settles O19: the operand fetch fails at the first address past memory, before the lookup. -/
theorem operandFetchPastMemoryFaults : Obligations.OperandFetchPastMemoryFaults := by
  intro s op hrun hop hpast
  obtain ⟨hpc, rfl⟩ := memRead_eq_ok s _ _ hop
  rw [← operandCount_eq_div] at hpast
  rw [step_of_running s hrun, runCycle_fetch_error s _ (fetch_straddles s hpc (by omega))]
  rfl

/-- Settles O20: the fetch succeeds, and the lookup answers no instruction. -/
theorem unregisteredOpcodeFaults : Obligations.UnregisteredOpcodeFaults := by
  intro s op hrun hop hin hnone
  obtain ⟨_, rfl⟩ := memRead_eq_ok s _ _ hop
  rw [← operandCount_eq_div] at hin
  rw [step_of_running s hrun, runCycle_unsupported s _ (fetch_inside s (by omega))
    (lookup_eq_none_of_forall_opcodeOf_ne _ _ hnone)]
  rfl

/-- Settles O23: only JMP's opcode has bit 4 set, its register operand is the byte after it, and its handler writes
nothing but pc. -/
theorem pcSetBitMeansPcTakesTheRegister : Obligations.PcSetBitMeansPcTakesTheRegister := by
  intro s t op hc hop hbit
  obtain ⟨i, u, hat, hu, rfl⟩ := cycleCompletes_handler hc
  cases hat.opcode.symm.trans hop
  obtain ⟨ra, rfl⟩ := (pcSetBit_opcodeOf_iff i).mp hbit
  obtain ⟨hr, rfl⟩ := (effect_of_handlerOf_ok hu).jmp_eq
  exact ⟨ra, _, hat 1 (by simp [encode]), readReg_valid s ra hr, updatePc_jmp _⟩

/-- Settles O42, from what a step into FAULTED is. -/
theorem faultingCycleChangesOnlyTheRunState : Obligations.FaultingCycleChangesOnlyTheRunState :=
  fun _ _ _ hrun hstep ht => (eq_raise_of_step_faulted hrun hstep ht).1

/-- Settles O44, from the three outcomes of a cycle. -/
theorem everyStepAnswersANextState : Obligations.EveryStepAnswersANextState := exists_step_next

/-- Settles O46: of the handlers only PUSH's changes memory, and its two bytes stand at pc. -/
theorem onlyPushChangesMemory : Obligations.OnlyPushChangesMemory := by
  intro s t hstep
  rcases step_next_cases hstep with ⟨_, rfl⟩ | ⟨_, e, rfl, _⟩ | ⟨hrun, i, u, hat, hu, rfl⟩
  · exact .inl rfl
  · exact .inl rfl
  · rcases (effect_of_handlerOf_ok hu).mem_eq with hmem | ⟨ra, rfl⟩
    · exact .inl ((updatePc_mem _ u).trans hmem)
    · exact .inr ⟨ra, hrun, hat.opcode, hat 1 (by simp [encode]), step_of_holdsAtPc hat hrun⟩

/-- Settles O48: a fault writes no register, and a handler only the named ones. -/
theorem onlyTheNamedRegistersAreWritten : Obligations.OnlyTheNamedRegistersAreWritten := by
  intro i s t r hr hexec hnot
  have hnot : r ∉ writtenRegs i := by cases i <;> exact hnot
  rw [exec_eq_finishCycle] at hexec
  rcases finishCycle_cases _ _ _ _ hexec with ⟨e, _, rfl⟩ | ⟨u, hu, rfl⟩
  · rfl
  · simpa using (effect_of_handlerOf_ok hu).regs_eq hr hnot

/-- Settles O49: a fault enters FAULTED, and of the handlers only HLT's changes the run state. -/
theorem onlyHltOrAnErrorEndsTheRun : Obligations.OnlyHltOrAnErrorEndsTheRun := by
  intro s t hrun hstep
  rcases step_next_cases hstep with ⟨hr, _⟩ | ⟨_, e, rfl, _⟩ | ⟨_, i, u, hat, hu, rfl⟩
  · exact absurd hrun hr
  · exact .inr (.inr ⟨e, rfl⟩)
  · rw [updatePc_run]
    rcases (effect_of_handlerOf_ok hu).run_eq with hr | ⟨rfl, hr⟩
    · exact .inl (hr.trans hrun)
    · exact .inr (.inl ⟨hr, hat.opcode⟩)

/-! ### Output -/

/-- PRN's opcode byte belongs to no other instruction. -/
theorem eq_prn_of_opcodeOf {i : Instr} (h : opcodeOf i = Opcode.prn) : ∃ ra, i = .prn ra := by
  have hl := lookup_encode i
  rw [h] at hl
  exact ⟨_, (Option.some.inj hl).symm⟩

theorem delivered_of_out_eq_append {s t : State} {e : List Byte} (h : t.out = s.out ++ e) : delivered s t = e := by
  rw [delivered, h, List.drop_left]

/-- A step that changes the output is a completed PRN cycle. -/
theorem out_eq_or_prn_completes {s t : State} (hstep : step s = .next t) :
    t.out = s.out ∨ CycleCompletes s t ∧ memRead s s.pc = .ok 0x47 := by
  rcases step_next_cases hstep with ⟨_, rfl⟩ | ⟨_, e, rfl, _⟩ | ⟨hrun, i, u, hat, hu, rfl⟩
  · exact .inl rfl
  · exact .inl rfl
  · have heff := effect_of_handlerOf_ok hu
    rcases heff.out_eq with hout | ⟨ra, rfl⟩
    · exact .inl ((updatePc_out _ u).trans hout)
    · exact .inr ⟨⟨hrun, hstep, fun e => by rw [updatePc_run]; exact heff.noError hrun e⟩, hat.opcode⟩

/-- Settles O47: a completed PRN cycle emits the byte of the register it names, and only such a cycle changes the
output. -/
theorem eachCompletedPrnDeliversExactlyOneByte : Obligations.EachCompletedPrnDeliversExactlyOneByte := by
  constructor
  · intro s t hc hop
    obtain ⟨i, u, hat, hu, rfl⟩ := cycleCompletes_handler hc
    obtain ⟨ra, rfl⟩ := eq_prn_of_opcodeOf (Except.ok.inj (hat.opcode.symm.trans hop))
    obtain ⟨hr, rfl⟩ := (effect_of_handlerOf_ok hu).prn_eq
    have hout : (updatePc (opcodeOf (.prn ra)) (emit s s.regs[ra.toNat])).out = s.out ++ [s.regs[ra.toNat]] :=
      updatePc_out _ _
    exact ⟨ra, _, hat 1 (by simp [encode]), readReg_valid s ra hr, hout, delivered_of_out_eq_append hout⟩
  · intro s t hstep hnot
    have hout : t.out = s.out := (out_eq_or_prn_completes hstep).resolve_right hnot
    exact ⟨hout, delivered_of_out_eq_append (by rw [hout, List.append_nil])⟩

end Sys2Proof.Machine
end

section
/-! The output stream is write-only (spec/10_state.md section 4): putting earlier output in front commutes with every
handler, and so with a step. -/

namespace Sys2Proof.Machine

/-- The state with `o` emitted before all that it has emitted. -/
def prependOut (o : List Byte) (s : State) : State := { s with out := o ++ s.out }

/-- A handler with one index check, whose writes commute with earlier output. -/
theorem prependOut_of_index_check {f : State → Except FatalError State} {o : List Byte} {ra : Byte}
    (hvalid : ra.toNat < 8 →
      ∃ g : State → State, (∀ s, f s = .ok (g s)) ∧ ∀ s, g (prependOut o s) = prependOut o (g s))
    (hinvalid : ¬ ra.toNat < 8 → ∀ s, f s = .error (.invalidRegister ra)) (s : State) :
    f (prependOut o s) = (f s).map (prependOut o) := by
  by_cases h : ra.toNat < 8
  · obtain ⟨g, hf, hg⟩ := hvalid h
    rw [hf, hf, hg]; rfl
  · rw [hinvalid h, hinvalid h]; rfl

theorem aluHandler_prependOut (op : AluOp) (ra rb : Byte) (o : List Byte) (s : State) :
    aluHandler op ra rb (prependOut o s) = (aluHandler op ra rb s).map (prependOut o) := by
  by_cases ha : ra.toNat < 8
  · by_cases hb : rb.toNat < 8
    · rw [aluHandler_valid op _ ha hb, aluHandler_valid op s ha hb]
      simp only [prependOut]
      cases alu op s.regs[ra.toNat] s.regs[rb.toNat] <;> rfl
    · rw [aluHandler_invalid_right op _ ha hb, aluHandler_invalid_right op s ha hb]; rfl
  · rw [aluHandler_invalid_left op rb _ ha, aluHandler_invalid_left op rb s ha]; rfl

theorem emit_prependOut (o : List Byte) (s : State) (v : Byte) : emit (prependOut o s) v = prependOut o (emit s v) := by
  simp [emit, prependOut]

/-- No handler reads the output. -/
theorem handlerOf_prependOut (i : Instr) (o : List Byte) (s : State) :
    handlerOf i (prependOut o s) = (handlerOf i s).map (prependOut o) := by
  cases i with
  | hlt => rfl
  | ldi ra imm =>
    exact prependOut_of_index_check (f := ldiHandler ra imm)
      (fun h => ⟨_, fun s => ldiHandler_valid ra imm s h, fun _ => rfl⟩) (fun h s => ldiHandler_invalid ra imm s h) s
  | prn ra =>
    exact prependOut_of_index_check (f := prnHandler ra)
      (fun h => ⟨_, fun s => prnHandler_valid ra s h, fun s => emit_prependOut o s _⟩)
      (fun h s => prnHandler_invalid ra s h) s
  | push ra =>
    exact prependOut_of_index_check (f := pushHandler ra)
      (fun h => ⟨_, fun s => pushHandler_valid ra s h, fun _ => rfl⟩) (fun h s => pushHandler_invalid ra s h) s
  | pop ra =>
    exact prependOut_of_index_check (f := popHandler ra)
      (fun h => ⟨_, fun s => popHandler_valid ra s h, fun _ => rfl⟩) (fun h s => popHandler_invalid ra s h) s
  | jmp ra =>
    exact prependOut_of_index_check (f := jmpHandler ra)
      (fun h => ⟨_, fun s => jmpHandler_valid ra s h, fun _ => rfl⟩) (fun h s => jmpHandler_invalid ra s h) s
  | inc ra rb | dec ra rb | add ra rb | sub ra rb | mul ra rb | div ra rb | mod ra rb | and ra rb | or ra rb
  | xor ra rb | shl ra rb | shr ra rb => exact aluHandler_prependOut _ ra rb o s

theorem updatePc_prependOut (op : Byte) (o : List Byte) (u : State) :
    updatePc op (prependOut o u) = prependOut o (updatePc op u) := by
  unfold updatePc
  split <;> rfl

theorem exec_prependOut {i : Instr} {s t : State} (o : List Byte) (h : exec i s = .next t) :
    exec i (prependOut o s) = .next (prependOut o t) := by
  rw [exec_eq_finishCycle] at h ⊢
  rw [handlerOf_prependOut]
  rcases finishCycle_cases _ _ _ _ h with ⟨e, he, rfl⟩ | ⟨u, hu, rfl⟩
  · rw [he]; rfl
  · rw [hu, ← updatePc_prependOut]; rfl

/-- The fetch reads memory and pc alone. -/
theorem fetch_prependOut (o : List Byte) (s : State) : fetch (prependOut o s) = fetch s := rfl

theorem step_prependOut {s t : State} (o : List Byte) (h : step s = .next t) :
    step (prependOut o s) = .next (prependOut o t) := by
  by_cases hrun : s.run = .running
  · rw [step_of_running s hrun] at h
    rw [step_of_running (prependOut o s) hrun]
    unfold runCycle at h ⊢
    rw [fetch_prependOut]
    split at h
    · cases h; rfl
    · split at h
      · cases h; rfl
      · exact exec_prependOut o h
  · cases (step_of_not_running s hrun).symm.trans h
    exact step_of_not_running (prependOut o s) hrun

/-- Settles O50: `e` is what the step emits when nothing was emitted before it. -/
theorem outputIsNeverReadBack : Obligations.OutputIsNeverReadBack := by
  intro s t hstep
  obtain ⟨u, hu⟩ := exists_step_next { s with out := [] }
  have hany (o : List Byte) : step { s with out := o } = .next (prependOut o u) := by
    simpa [prependOut] using step_prependOut o hu
  cases (hany s.out).symm.trans hstep
  exact ⟨u.out, rfl, hany⟩

end Sys2Proof.Machine
end

section
/-! The stack discipline (spec/42_stack.md): PUSH lowers SP and POP raises it again, so pairs of them nest. -/

namespace Sys2Proof.Machine

/-! ### The registers with SP one lower -/

/-- The registers with SP one lower, modulo 256: what PUSH leaves. -/
def spLowered (x : Vector Byte 8) : Vector Byte 8 := x.set 7 (x[7] - 1)

@[simp] theorem spLowered_sp (x : Vector Byte 8) : (spLowered x)[7] = x[7] - 1 := Vector.getElem_set_self _

theorem spLowered_getElem {n : Nat} (x : Vector Byte 8) (h : n < 7) : (spLowered x)[n] = x[n] :=
  Vector.getElem_set_ne _ _ (by omega)

theorem set_sp {n : Nat} (x : Vector Byte 8) (v : Byte) (h : n < 7) : (x.set n v)[7] = x[7] :=
  Vector.getElem_set_ne _ _ (by omega)

/-- Writing another register and lowering SP commute. -/
theorem spLowered_set {n : Nat} (x : Vector Byte 8) (v : Byte) (h : n < 7) :
    (spLowered x).set n v = spLowered (x.set n v) := by
  rw [spLowered, spLowered, set_sp x v h]
  exact Vector.set_comm _ _ (by omega)

/-- Putting SP back undoes the lowering. -/
theorem spLowered_set_sp (x : Vector Byte 8) : (spLowered x).set 7 x[7] = x := by
  rw [spLowered, Vector.set_set, Vector.set_getElem_self]

/-! ### PUSH and POP of a register other than SP -/

theorem ne_sp {r : Byte} (h : r.toNat < 7) : r ≠ 7 := fun e => absurd h (by rw [e]; decide)

/-- PUSH lowers SP, and stores the source where SP then points. -/
theorem exec_push_lowers {r : Byte} (s : State) (h : r.toNat < 7) :
    ∃ t, exec (.push r) s = .next t ∧ t.regs = spLowered s.regs ∧
      t.mem = s.mem.write (s.regs[7] - 1).toNat s.regs[r.toNat] ∧ t.pc = s.pc + 2 ∧ t.run = s.run ∧ t.out = s.out :=
  ⟨_, exec_push s r (by omega), rfl, by rw [if_neg (ne_sp h)], rfl, rfl, rfl⟩

/-- POP where the registers are `x` with SP lowered gives `x`, with the byte at the lowered SP in the destination. -/
theorem exec_pop_raises {r : Byte} {x : Vector Byte 8} (s : State) (h : r.toNat < 7) (hregs : s.regs = spLowered x) :
    ∃ t, exec (.pop r) s = .next t ∧ t.regs = x.set r.toNat (s.mem.read (x[7] - 1).toNat) ∧ t.mem = s.mem ∧
      t.pc = s.pc + 2 ∧ t.run = s.run ∧ t.out = s.out := by
  refine ⟨_, exec_pop s r (by omega), ?_, rfl, rfl, rfl, rfl⟩
  simp only [if_neg (ne_sp h), hregs, spLowered_sp, spLowered_set x _ h, BitVec.sub_add_cancel]
  generalize s.mem.read (x[7] - 1).toNat = v
  rw [← set_sp x v h]
  exact spLowered_set_sp _

/-! ### The statements -/

/-- Settles O51: the POP finds the pushed byte at the lowered SP, and raises SP to where it was. -/
theorem pushThenPopRestoresTheValueAndSp : Obligations.PushThenPopRestoresTheValueAndSp := by
  intro s r r' h h'
  obtain ⟨t, hpush, hregs, hmem, hpc, hrun, hout⟩ := exec_push_lowers s h
  obtain ⟨u, hpop, huregs, _, hupc, hurun, huout⟩ := exec_pop_raises t h' hregs
  refine ⟨t, u, hpush, hpop, ?_, by omega, hurun.trans hrun, huout.trans hout⟩
  rw [huregs, hmem, Memory.read_write_same]

/-- Settles O52: the pairs nest, so each POP finds the SP that its own PUSH left, and the cell there is none of those
the inner pushes stored to, since SP, SP - 1 and SP - 2 differ modulo 256. -/
theorem threePushesPopInReverseOrder : Obligations.ThreePushesPopInReverseOrder := by
  intro s a b c p q r ha hb hc hp hq hr _ _ _
  obtain ⟨s₁, h₁, hregs₁, hmem₁, _⟩ := exec_push_lowers s ha
  obtain ⟨s₂, h₂, hregs₂, hmem₂, _⟩ := exec_push_lowers s₁ hb
  obtain ⟨s₃, h₃, hregs₃, hmem₃, _⟩ := exec_push_lowers s₂ hc
  simp only [hregs₁, spLowered_sp, spLowered_getElem _ hb] at hregs₂ hmem₂
  simp only [hregs₂, spLowered_sp, spLowered_getElem _ hc] at hregs₃ hmem₃
  obtain ⟨s₄, h₄, hregs₄, hmem₄, _⟩ := exec_pop_raises s₃ hp hregs₃
  rw [spLowered_set _ _ hp, spLowered_set _ _ hp] at hregs₄
  obtain ⟨s₅, h₅, hregs₅, hmem₅, _⟩ := exec_pop_raises s₄ hq hregs₄
  rw [spLowered_set _ _ hq] at hregs₅
  obtain ⟨s₆, h₆, hregs₆, _⟩ := exec_pop_raises s₅ hr hregs₅
  refine ⟨s₁, s₂, s₃, s₄, s₅, s₆, h₁, h₂, h₃, h₄, h₅, h₆, ?_⟩
  have hne₁ : (s.regs[7] - 1).toNat ≠ (s.regs[7] - 1 - 1).toNat := by bv_omega
  have hne₂ : (s.regs[7] - 1).toNat ≠ (s.regs[7] - 1 - 1 - 1).toNat := by bv_omega
  have hne₃ : (s.regs[7] - 1 - 1).toNat ≠ (s.regs[7] - 1 - 1 - 1).toNat := by bv_omega
  rw [hregs₆, hmem₅, hmem₄, hmem₃, hmem₂, hmem₁]
  simp only [set_sp _ _ hp, set_sp _ _ hq, spLowered_sp, Memory.read_write, if_neg hne₁, if_neg hne₂, if_neg hne₃,
    if_true]

end Sys2Proof.Machine
end

section
/-! Fetch coherence (spec/20_memory.md section 4): a stored byte is what the next fetch reads. -/

namespace Sys2Proof.Machine

/-- Settles O53: the pushed byte is HLT's encoding, and it stands at the pc that the PUSH leaves. -/
theorem pushedCodeIsFetchedByTheNextCycle : Obligations.PushedCodeIsFetchedByTheNextCycle := by
  intro s a ha hrun hop hopnd hx hsp
  obtain ⟨t, hpush, _, hmem, hpc, htrun, _⟩ := exec_push_lowers s ha
  have hat : HoldsAtPc s (encode (.push a)) := by
    intro k hk
    match k, hk with
    | 0, _ => exact hop
    | 1, _ => exact hopnd
  have hhlt : HoldsAtPc t (encode .hlt) := by
    intro k hk
    match k, hk with
    | 0, _ =>
      have hlt := (s.regs[7] - 1).isLt
      rw [hpc, memRead_valid t _ (by omega), hmem, hx, hsp]
      exact congrArg _ (Memory.read_write_same _ _ _)
  refine ⟨t, _, (step_of_holdsAtPc hat hrun).trans hpush,
    (step_of_holdsAtPc hhlt (htrun.trans hrun)).trans (exec_hlt t), rfl, ?_⟩
  simp [hpc]

end Sys2Proof.Machine
end

section
/-! The ports (spec/10_state.md section 7): Reset, Load, Run and the status port. -/

namespace Sys2Proof.Machine

/-! ### Reset -/

/-- The byte that reset memory reads everywhere is no instruction's opcode. -/
theorem opcodeOf_ne_zero (i : Instr) : opcodeOf i ≠ 0 := by
  cases i <;> exact nofun

/-- Settles O2: reset memory lists no cell, and 0x00 has no handler and asks for no operand. -/
theorem resetMemoryReadsZeroAndFirstFetchFaults : Obligations.ResetMemoryReadsZeroAndFirstFetchFaults :=
  ⟨fun a ha => memRead_valid State.reset a ha, rfl,
    unregisteredOpcodeFaults State.reset 0 rfl rfl (by decide) opcodeOf_ne_zero⟩

/-- Settles O3: the empty list of cells is canonical, and pc is 0. -/
theorem resetMeetsInvariant : Obligations.ResetMeetsInvariant := ⟨reset_mem_wf, Nat.zero_le _⟩

/-! ### The status port -/

/-- Settles O43, one error kind after another. -/
theorem errorCodesTellTheFiveKindsApart : Obligations.ErrorCodesTellTheFiveKindsApart := by
  constructor
  · intro e
    cases e <;> simp [errorCode]
  · intro s e he
    exact ⟨he, by simp [statusCode, he]⟩

/-! ### Load -/

theorem load_reset (image : List Byte) : load image State.reset = .next (loadBytes image 0 State.reset) := if_pos rfl

theorem load_refused {image : List Byte} {s : State} (h : s ≠ State.reset) :
    load image s = .refused .loadNotAvailable := if_neg h

/-- An address of the image reads its byte, and every other reads as before. -/
theorem read_loaded (image : List Byte) (m : Memory) (a : Nat) :
    (m.writeBytes 0 image).read a = if a < image.length then image.getD a 0 else m.read a := by
  simp [Memory.read_writeBytes]

/-- The state that an over-long image leaves (20_memory.md R66). -/
theorem load_overlong {image : List Byte} (h : 256 < image.length) :
    ∃ t, load image State.reset = .next t ∧ (∀ i, i < 256 → memRead t i = .ok (image.getD i 0)) ∧
      t = { State.reset with mem := t.mem, run := .faulted (.invalidAddress 256) } := by
  refine ⟨_, by rw [load_reset, loadBytes_overflows image 0 _ (by decide) (by omega)], fun i hi => ?_, rfl⟩
  have hlen : (image.take 256).length = 256 := by rw [List.length_take]; omega
  rw [memRead_valid _ i hi, read_loaded, hlen, if_pos hi]
  simp [List.getD_eq_getElem?_getD, hi]

/-- Settles O54: the bytes of an image that fits are stored and nothing else is written; an over-long one is stored up
to its 256th byte. -/
theorem loadWritesTheImageFromAddressZero : Obligations.LoadWritesTheImageFromAddressZero := by
  constructor
  · intro image hlen
    refine ⟨_, by rw [load_reset, loadBytes_fits image 0 _ (by omega)], fun i hi => ?_, fun i hi => ?_, rfl, ?_⟩
    · rw [memRead_valid _ i (by omega), read_loaded, if_pos hi, List.getD_eq_getElem _ _ hi]
    · by_cases hin : i < 256
      · rw [memRead_valid _ i hin, memRead_valid _ i hin, read_loaded, if_neg (by omega)]
      · rw [memRead_invalid _ i hin, memRead_invalid _ i hin]
    · rintro rfl; rfl
  · intro image hlen
    obtain ⟨t, hload, hread, ht⟩ := load_overlong hlen
    exact ⟨t, hload, hread, by rw [ht], by rw [ht], by rw [ht]⟩

/-- Settles O55: the state an over-long image leaves is terminal. -/
theorem overlongImageFaultsAndNothingRuns : Obligations.OverlongImageFaultsAndNothingRuns := by
  intro image hlen
  obtain ⟨t, hload, hread, ht⟩ := load_overlong hlen
  have hstop : t.run ≠ .running := by rw [ht]; exact nofun
  exact ⟨t, hload, hread, ht,
    fun k => ⟨runFor_of_not_running k t hstop, completedCycles_of_not_running k t hstop⟩⟩

/-- Settles O56: the image's bytes are stored inside the address space, whether all of them or the first 256. -/
theorem loadedStateMeetsInvariant : Obligations.LoadedStateMeetsInvariant := by
  intro image t hload
  cases (load_reset image).symm.trans hload
  by_cases hlen : image.length ≤ 256
  · rw [loadBytes_fits image 0 _ (by omega)]
    exact ⟨Memory.wf_writeBytes image _ 0 reset_mem_wf (show 0 + image.length ≤ 256 by omega), Nat.zero_le _⟩
  · rw [loadBytes_overflows image 0 _ (by decide) (by omega)]
    have htake : 0 + (image.take 256).length ≤ 256 := by rw [List.length_take]; omega
    exact ⟨Memory.wf_writeBytes _ _ 0 reset_mem_wf htake, Nat.zero_le _⟩

/-! ### Run and Stop -/

theorem runFor_succ {s t : State} (k : Nat) (hrun : s.run = .running) (hstep : step s = .next t) :
    runFor (k + 1) s = runFor k t := by
  simp [runFor, hrun, hstep]

/-- A cycle adds the same number to the count of every run that begins with it: 0 for a fault, else 1. -/
theorem completedCycles_succ {s t : State} (hrun : s.run = .running) (hstep : step s = .next t) :
    ∃ n, ∀ k, completedCycles (k + 1) s = n + completedCycles k t := by
  cases ht : t.run with
  | running => exact ⟨1, fun k => by simp [completedCycles, hrun, hstep, ht, Nat.add_comm]⟩
  | halted =>
    have hstop := fun k => completedCycles_of_not_running k t (by rw [ht]; exact nofun)
    exact ⟨1, fun k => by simp [completedCycles, hrun, hstep, ht, hstop k]⟩
  | faulted e =>
    have hstop := fun k => completedCycles_of_not_running k t (by rw [ht]; exact nofun)
    exact ⟨0, fun k => by simp [completedCycles, hrun, hstep, ht, hstop k]⟩

/-- Settles O21, from the laws of a machine that is not RUNNING. -/
theorem terminalStatesStayAsTheyAre : Obligations.TerminalStatesStayAsTheyAre :=
  fun s k h => ⟨step_of_not_running s h, runFor_of_not_running k s h, completedCycles_of_not_running k s h⟩

/-- Settles O58, by induction on the first bound: a terminal state stays, and the first step of a RUNNING one is the
first step of both runs. -/
theorem hostStopBetweenCyclesChangesNothing : Obligations.HostStopBetweenCyclesChangesNothing := by
  intro s t j k hj
  induction j generalizing s with
  | zero => cases hj; simp [completedCycles]
  | succ j ih =>
    by_cases hrun : s.run = .running
    · obtain ⟨s', hstep⟩ := exists_step_next s
      obtain ⟨n, hn⟩ := completedCycles_succ hrun hstep
      rw [runFor_succ j hrun hstep] at hj
      obtain ⟨hr, hc⟩ := ih s' hj
      rw [Nat.add_right_comm, runFor_succ _ hrun hstep, hn, hn, hc, Nat.add_assoc]
      exact ⟨hr, rfl⟩
    · cases (runFor_of_not_running (j + 1) s hrun).symm.trans hj
      simp only [runFor_of_not_running _ t hrun, completedCycles_of_not_running _ t hrun, and_self]

theorem coreRun_succ {M : Host.Core} {s t : M.State} (k : Nat) (h : M.step s = .next t) : M.run (k + 1) s = M.run k t := by
  simp only [Host.Core.run, h]

/-- Settles O59, by induction on the bound: in a terminal state the core's steps answer the state that Run stays in. -/
theorem runForIsTheCoresRun : Obligations.RunForIsTheCoresRun := by
  intro k s
  induction k generalizing s with
  | zero => rfl
  | succ k ih =>
    obtain ⟨t, hstep⟩ := exists_step_next s
    rw [coreRun_succ (M := core) k hstep, ← ih t]
    by_cases hrun : s.run = .running
    · exact runFor_succ k hrun hstep
    · cases (step_of_not_running s hrun).symm.trans hstep
      rw [runFor_of_not_running _ s hrun, runFor_of_not_running _ s hrun]

/-- No step of a RUNNING machine leaves the reset state: a fault or HLT ends the run, JMP's own opcode byte is still in
memory, and every other instruction leaves pc past itself. -/
theorem step_ne_reset {s t : State} (hrun : s.run = .running) (hstep : step s = .next t) : t ≠ State.reset := by
  rintro rfl
  rcases step_next_cases hstep with ⟨hr, _⟩ | ⟨_, e, ht, _⟩ | ⟨_, i, u, hat, hu, ht⟩
  · exact hr hrun
  · exact absurd (congrArg State.run ht) nofun
  · rcases updatePc_cases hu with hpc | ⟨ra, rfl, v, hjmp⟩
    · rw [← ht] at hpc
      exact absurd hpc.symm (Nat.succ_ne_zero _)
    · have hmem : s.mem = [] := (congrArg State.mem (ht.trans hjmp)).symm
      have hread := hat.read_pc
      rw [hmem] at hread
      exact opcodeOf_ne_zero _ hread.symm

/-- Settles O57, by induction on the bound: the state is left by a step, or is terminal, and the reset state is
neither. -/
theorem loadIsRefusedAfterTheFirstCycle : Obligations.LoadIsRefusedAfterTheFirstCycle := by
  intro image s t k hrun hk
  refine load_refused ?_
  induction k generalizing s with
  | zero =>
    obtain ⟨s', hstep⟩ := exists_step_next s
    cases (runFor_succ 0 hrun hstep).symm.trans hk
    exact step_ne_reset hrun hstep
  | succ k ih =>
    obtain ⟨s', hstep⟩ := exists_step_next s
    rw [runFor_succ _ hrun hstep] at hk
    by_cases hrun' : s'.run = .running
    · exact ih s' hrun' hk
    · cases (runFor_of_not_running _ s' hrun').symm.trans hk
      exact step_ne_reset hrun hstep

end Sys2Proof.Machine
end
